-- ==== Sys2Proof/Word.lean ====
section
/-! DEFINITION. The word types of the block and the lane array (spec/00_scope.md R8, R9; spec/10_state.md R10, R11). -/

namespace Sys2Proof

/-- A lane: one 64-bit register of the state (R8, R10). -/
abbrev Lane := BitVec 64

/-- A byte of the byte view, of a message or of a response (R8). -/
abbrev Byte := BitVec 8

/-- A command word: 32 bits, one whole value with no byte order (R50, R53). -/
abbrev Word := BitVec 32

/-- The 1600-bit state as the 25 lanes `A[0]` .. `A[24]` (R10). -/
abbrev Lanes := Vector Lane 25

/-- The lane index `x + 5·y` of column `x`, row `y` (R11). -/
def laneIndex (x y : Fin 5) : Fin 25 := ⟨x.val + 5 * y.val, by omega⟩

/-- The column `x` of a lane index (R11). -/
def columnOf (i : Fin 25) : Fin 5 := ⟨i.val % 5, by omega⟩

/-- The row `y` of a lane index (R11). -/
def rowOf (i : Fin 25) : Fin 5 := ⟨i.val / 5, by omega⟩

end Sys2Proof
end

