-- ==== Sys2Proof/Config.lean ====
section
/-! DEFINITION. What is fixed for every instance of the block (spec/00_scope.md R8).

R8: every size in the block is fixed and none is left to an implementation. The only open parameter is the latency
`LAT(cmd)`, which no rule reads and which a model without time drops (log entry 9). The spec leaves no value
undefined in a state a run can reach, so there is no free value here. The three constant tables, which are the same in every
instance (R20), stand in `Machine/Tables.lean`, the variant table in `Machine/Variants.lean`. -/

namespace Sys2Proof.Config

/-- The rounds of one permutation, `NR` (R8, R79). -/
def roundCount : Nat := 24

/-- The domain separator byte, the same for all four variants (R8, R110). -/
def domainByte : Byte := 0x06#8

/-- The final padding byte, XORed at byte `rate - 1` (R8, R93). -/
def finalPadByte : Byte := 0x80#8

end Sys2Proof.Config
end

