-- ==== Sys2Proof/Machine/State.lean ====
section
/-! DEFINITION. The state of the block and the reasons a step can stop (spec/10_state.md; spec/20_memory.md R30;
spec/60_exceptions.md R132). -/

namespace Sys2Proof.Machine

/-- PHASE (R13): which commands the block accepts. Three values: 3 is not a legal state, and R120 and V5 recommend a
three-valued type (log entry 3). -/
inductive Phase where
  /-- no hash in progress, raw access allowed -/
  | idle
  /-- a hash has been started with INIT and has not been finalised -/
  | absorb
  /-- FINAL has run, the first `outLen` bytes are the digest -/
  | done
  deriving DecidableEq, Repr

/-- The response codes (R132). Codes 5 to 15 are never produced (R63, V8). -/
inductive Code where
  /-- the command was executed -/
  | ok
  /-- `w[31:24]` is not one of the 15 opcodes -/
  | illegalOpcode
  /-- a must-be-zero bit of the command's format is 1 -/
  | reservedField
  /-- the command is not legal in the current PHASE -/
  | badPhase
  /-- the index operand is out of range for the command -/
  | badIndex
  deriving DecidableEq, Repr

/-- A response: code and data (R50, R63). -/
structure Response where
  /-- why the command was refused, or OK -/
  code : Code
  /-- the byte the command returns, `0x00` when it returns none -/
  rdata : Byte
  deriving DecidableEq, Repr

/-- What the host does to the block, one event a step (R50, R150, R151; log entries 1 and 8). -/
inductive HostEvent where
  /-- the host presents the command word `w` until it is accepted, and it runs to its response -/
  | word (w : Word)
  /-- the reset input is asserted while no command executes -/
  | reset
  /-- the reset input is asserted while the accepted command word `w` executes: `w` is abandoned -/
  | abandoned (w : Word)
  deriving DecidableEq, Repr

/-- The whole architectural state `σ` (R10, R12, R13, R14; R22: complete). The byte view and STATUS are views of it
(R15, R30), not fields. -/
structure Arch where
  /-- `A[0]` .. `A[24]` (R10) -/
  lanes : Lanes
  /-- MODE (R12): 0 SHA3-224, 1 SHA3-256, 2 SHA3-384, 3 SHA3-512 -/
  mode : BitVec 2
  /-- PHASE (R13) -/
  phase : Phase
  /-- CURSOR (R14): the byte index where the next message byte, or the padding, goes -/
  cursor : BitVec 8
  deriving DecidableEq, Repr

/-- The machine: its architectural state and the traffic of its two ports (R50, R51; log entry 1). -/
structure State where
  /-- the architectural state -/
  arch : Arch
  /-- the host's events not taken yet, oldest first -/
  inputs : List HostEvent
  /-- the responses given so far, oldest first -/
  responses : List Response
  deriving DecidableEq, Repr

/-- Why the machine stops. No state a run can reach raises one (R159; 93_implementation_defined.md part 2). -/
inductive Fault where
  /-- Raised by ABSB and FINAL in phase ABSORB when CURSOR is not below `rate(MODE)`, which no run reaches (R22, V6) and for
  which the sponge functions have no result (R90, R91). Safe: the model stops where the spec defines nothing (log entry 4). -/
  | cursorOutsideBlock
  deriving DecidableEq, Repr

/-- Why an instruction has no meaning here. -/
inductive Refusal where
  /-- Raised by an arm of `exec` whose instruction is not modelled yet; none is left. Safe. -/
  | notModelled (mnemonic : String)
  deriving DecidableEq, Repr

/-- The architectural state right after reset (R23, R150): everything zero, phase IDLE. -/
def Arch.reset : Arch where
  lanes := Vector.replicate 25 0#64
  mode := 0#2
  phase := .idle
  cursor := 0#8

/-- The machine right after reset: R23's values, no host event waiting and no response given (log entry 1). -/
def State.reset : State where
  arch := Arch.reset
  inputs := []
  responses := []

end Sys2Proof.Machine
end

