-- ==== Sys2Proof/Machine/Flags.lean ====
section
/-! DEFINITION. The block has no flags and no condition codes (spec/10_state.md R22). What it has in their place are the
read-only STATUS view of its control registers (R15) and the numbers of the response codes (spec/60_exceptions.md R132). -/

namespace Sys2Proof.Machine

/-- The 2-bit encoding of PHASE (R13). -/
def phaseBits : Phase → BitVec 2
  | .idle => 0#2
  | .absorb => 1#2
  | .done => 2#2

/-- `STATUS = {0b0000, PHASE, MODE, CURSOR}` (R15). -/
def statusWord (σ : Arch) : BitVec 16 := 0#4 ++ phaseBits σ.phase ++ σ.mode ++ σ.cursor

/-- Byte `a` of STATUS, `a` = 0 or 1 (R15, R115). -/
def statusByte (σ : Arch) (a : Fin 2) : Byte := (statusWord σ).extractLsb' (8 * a.val) 8

/-- The 4-bit number of a response code (R132). -/
def codeBits : Code → BitVec 4
  | .ok => 0#4
  | .illegalOpcode => 1#4
  | .reservedField => 2#4
  | .badPhase => 3#4
  | .badIndex => 4#4

/-- The response as one 12-bit value `{code, rdata}` (R63). -/
def responseBits (r : Response) : BitVec 12 := codeBits r.code ++ r.rdata

end Sys2Proof.Machine
end

