-- ==== Sys2Proof/Syntax.lean ====
section
/-! DEFINITION. The commands of the block: one constructor for each row of the opcode map (spec/30_encoding.md R55). -/

namespace Sys2Proof

/-- The block's instructions are its commands (R6 (a)). Operands have the width the encoding gives them
(R53, R54): an index or round number is a whole byte here, and its range is checked when the command runs (R59). -/
inductive Instr where
  /-- NOP: nothing (R114). -/
  | nop
  /-- CLR: zero lanes and CURSOR, PHASE to IDLE (R113). -/
  | clr
  /-- INIT m: start a hash of variant `m` (R112). -/
  | init (m : BitVec 2)
  /-- RDSR a: read byte `a` of STATUS (R115). -/
  | rdsr (a : Byte)
  /-- ABSB d: absorb the message byte `d` (R95). -/
  | absb (d : Byte)
  /-- FINAL: pad and permute once (R96). -/
  | final
  /-- RDD a: read digest byte `a` (R97). -/
  | rdd (a : Byte)
  /-- LDB a: read state byte `a` (R116). -/
  | ldb (a : Byte)
  /-- STB a, d: write state byte `a` (R117). -/
  | stb (a d : Byte)
  /-- THETA (R81). -/
  | theta
  /-- RHOPI (R82). -/
  | rhopi
  /-- CHI (R83). -/
  | chi
  /-- IOTA a: XOR `RC[a]` into lane 0 (R84). -/
  | iota (a : Byte)
  /-- ROUND a: one whole round with constant `RC[a]` (R85). -/
  | round (a : Byte)
  /-- PERM: the 24-round permutation (R86). -/
  | perm
  deriving DecidableEq, Repr

/-- The five operand formats (R54). -/
inductive Format where
  /-- no operand -/
  | z
  /-- index operand `a` -/
  | a
  /-- mode operand `a[1:0]` -/
  | m
  /-- data operand `d` -/
  | d
  /-- index operand `a` and data operand `d` -/
  | ad
  deriving DecidableEq, Repr

end Sys2Proof
end

