-- ==== Sys2Proof/WellFormed.lean ====
section
/-! DEFINITION. Well-formed commands: the operand ranges of the opcode table (spec/opcode_table.json `operand_range`;
spec/30_encoding.md R59).

Every term of `Instr` encodes to a word that decodes back to it, whatever its operands, so the encoder needs no check. What is
checked here is the STATIC part of the range rule: an index for which no state at all accepts the command (for
RDD the widest digest, 64 bytes). The machine reads none of this: it checks the range itself, against MODE
(log entry 15). -/

namespace Sys2Proof

/-- The index operand is in the range the opcode table gives it. -/
def Instr.wellFormed : Instr → Bool
  | .rdsr a => decide (a.toNat ≤ 1)
  | .rdd a => decide (a.toNat < 64)
  | .ldb a => decide (a.toNat < 200)
  | .stb a _ => decide (a.toNat < 200)
  | .iota a => decide (a.toNat < 24)
  | .round a => decide (a.toNat < 24)
  | .nop => true
  | .clr => true
  | .init _ => true
  | .absb _ => true
  | .final => true
  | .theta => true
  | .rhopi => true
  | .chi => true
  | .perm => true

end Sys2Proof
end

