-- ==== Sys2Proof/Decode.lean ====
section
/-! DEFINITION. Decoding and encoding of command words (spec/30_encoding.md R53 to R57). -/

namespace Sys2Proof

/-- The opcode field `w[31:24]` (R53). -/
def opField (w : Word) : Byte := w.extractLsb' 24 8

/-- The index field `w[23:16]` (R53). -/
def aField (w : Word) : Byte := w.extractLsb' 16 8

/-- The reserved field `w[15:8]` (R53). -/
def zField (w : Word) : Byte := w.extractLsb' 8 8

/-- The data field `w[7:0]` (R53). -/
def dField (w : Word) : Byte := w.extractLsb' 0 8

/-- The mode operand `m = a[1:0]` of format M (R54). -/
def mOfA (a : Byte) : BitVec 2 := a.extractLsb' 0 2

/-- The must-be-zero bits of a format, `MBZ(op)` (R54). -/
def mbz : Format → Word
  | .z => 0x00FFFFFF#32
  | .a => 0x0000FFFF#32
  | .m => 0x00FCFFFF#32
  | .d => 0x00FFFF00#32
  | .ad => 0x0000FF00#32

/-- The opcode map (R55): for an assigned opcode its format, and the command made of the fields `a` and `d`. `none`
for the 241 unassigned opcodes (R57 (a)). -/
def opcodeMap (op : Byte) : Option (Format × (Byte → Byte → Instr)) :=
  match op with
  | 0x00#8 => some (.z, fun _ _ => .nop)
  | 0x01#8 => some (.z, fun _ _ => .clr)
  | 0x02#8 => some (.m, fun a _ => .init (mOfA a))
  | 0x03#8 => some (.a, fun a _ => .rdsr a)
  | 0x10#8 => some (.d, fun _ d => .absb d)
  | 0x11#8 => some (.z, fun _ _ => .final)
  | 0x12#8 => some (.a, fun a _ => .rdd a)
  | 0x20#8 => some (.a, fun a _ => .ldb a)
  | 0x21#8 => some (.ad, fun a d => .stb a d)
  | 0x30#8 => some (.z, fun _ _ => .theta)
  | 0x31#8 => some (.z, fun _ _ => .rhopi)
  | 0x32#8 => some (.z, fun _ _ => .chi)
  | 0x33#8 => some (.a, fun a _ => .iota a)
  | 0x34#8 => some (.a, fun a _ => .round a)
  | 0x35#8 => some (.z, fun _ _ => .perm)
  | _ => none

/-- What a decoder answers: a command with its operands, illegal opcode, or reserved field (R56). -/
inductive Decoded where
  /-- the word is the command `i` -/
  | command (i : Instr)
  /-- the opcode is not assigned, whatever the other bits are -/
  | illegalOpcode
  /-- the opcode is assigned and a must-be-zero bit of its format is 1 -/
  | reservedField
  deriving DecidableEq, Repr

/-- The decoder: total on all 2^32 words, the opcode before the reserved bits (R52 stages 1 and 2, R56). -/
def decode (w : Word) : Decoded :=
  match opcodeMap (opField w) with
  | none => .illegalOpcode
  | some (f, build) => if w &&& mbz f = 0#32 then .command (build (aField w) (dField w)) else .reservedField

/-- A command word laid out from its fields, `z` zero (R53, R55). -/
def assembleWord (op a d : Byte) : Word := op ++ a ++ 0x00#8 ++ d

/-- The opcode of a command (R55). -/
def opcodeOf : Instr → Byte
  | .nop => 0x00#8
  | .clr => 0x01#8
  | .init _ => 0x02#8
  | .rdsr _ => 0x03#8
  | .absb _ => 0x10#8
  | .final => 0x11#8
  | .rdd _ => 0x12#8
  | .ldb _ => 0x20#8
  | .stb _ _ => 0x21#8
  | .theta => 0x30#8
  | .rhopi => 0x31#8
  | .chi => 0x32#8
  | .iota _ => 0x33#8
  | .round _ => 0x34#8
  | .perm => 0x35#8

/-- The format of a command (R55). -/
def formatOf : Instr → Format
  | .nop => .z
  | .clr => .z
  | .init _ => .m
  | .rdsr _ => .a
  | .absb _ => .d
  | .final => .z
  | .rdd _ => .a
  | .ldb _ => .a
  | .stb _ _ => .ad
  | .theta => .z
  | .rhopi => .z
  | .chi => .z
  | .iota _ => .a
  | .round _ => .a
  | .perm => .z

/-- The index field of a command's word: its operand `a`, its mode `m` in `a[1:0]`, or zero (R54, R55). -/
def aOperand : Instr → Byte
  | .nop => 0#8
  | .clr => 0#8
  | .init m => 0#6 ++ m
  | .rdsr a => a
  | .absb _ => 0#8
  | .final => 0#8
  | .rdd a => a
  | .ldb a => a
  | .stb a _ => a
  | .theta => 0#8
  | .rhopi => 0#8
  | .chi => 0#8
  | .iota a => a
  | .round a => a
  | .perm => 0#8

/-- The data field of a command's word: its operand `d`, or zero (R54, R55). -/
def dOperand : Instr → Byte
  | .absb d => d
  | .stb _ d => d
  | .nop => 0#8
  | .clr => 0#8
  | .init _ => 0#8
  | .rdsr _ => 0#8
  | .final => 0#8
  | .rdd _ => 0#8
  | .ldb _ => 0#8
  | .theta => 0#8
  | .rhopi => 0#8
  | .chi => 0#8
  | .iota _ => 0#8
  | .round _ => 0#8
  | .perm => 0#8

/-- The word of a command: `(op << 24) | (a << 16) | d` with the operands it has and zero elsewhere (R55). -/
def encode (i : Instr) : Word := assembleWord (opcodeOf i) (aOperand i) (dOperand i)

/-- The `match` value of a command's row, `op << 24` (R54; spec/opcode_table.json). -/
def rowMatch (i : Instr) : Word := assembleWord (opcodeOf i) 0#8 0#8

/-- The `mask` value of a command's row, `0xFF000000 | MBZ(op)` (R54; spec/opcode_table.json). -/
def rowMask (i : Instr) : Word := 0xFF000000#32 ||| mbz (formatOf i)

/-- The command a word of the opcode table is, given as `nbits` bits numbered from the least significant. A command word is
32 bits with no byte order (R50, R53), so the word goes to the decoder as it stands; bits above `nbits` are 0
(log entry 11). -/
def decodeTableWord (nbits w : Nat) : Option Instr :=
  match decode (BitVec.ofNat 32 (w % 2 ^ nbits)) with
  | .command i => some i
  | .illegalOpcode => none
  | .reservedField => none

end Sys2Proof
end

