-- ==== Sys2Proof/Machine/Variants.lean ====
section
/-! DEFINITION. The four digest variants (spec/42_variants_control.md R110). -/

namespace Sys2Proof.Machine

/-- `bits(m)`: the digest width of the variant with mode number `m` (R12, R110). -/
def bits (m : BitVec 2) : Nat :=
  match m with
  | 0#2 => 224
  | 1#2 => 256
  | 2#2 => 384
  | 3#2 => 512

/-- `outLen(m) = bits/8`: digest bytes (R110). -/
def outLen (m : BitVec 2) : Nat := bits m / 8

/-- `rate(m) = 200 - 2·(bits/8)`: bytes of a rate block (R110). -/
def rate (m : BitVec 2) : Nat := 200 - 2 * (bits m / 8)

end Sys2Proof.Machine
end

