-- ==== Sys2Proof/Machine/Operands.lean ====
section
/-! DEFINITION. The two state-dependent checks of a command: legality in the phase (spec/42_variants_control.md R120) and the range of
the index operand (spec/30_encoding.md R59). Operands are unsigned fields used as they stand (R59). -/

namespace Sys2Proof.Machine

/-- `Legal(op, PHASE)` (R120). -/
def legal (i : Instr) (p : Phase) : Bool :=
  match i with
  | .nop => true
  | .clr => true
  | .init _ => true
  | .rdsr _ => true
  | .ldb _ => true
  | .absb _ => p == .absorb
  | .final => p == .absorb
  | .rdd _ => p == .done
  | .stb _ _ => p == .idle
  | .theta => p == .idle
  | .rhopi => p == .idle
  | .chi => p == .idle
  | .iota _ => p == .idle
  | .round _ => p == .idle
  | .perm => p == .idle

/-- `InRange(op, a, MODE)` (R59); true for a command with no index operand. -/
def inRange (i : Instr) (m : BitVec 2) : Bool :=
  match i with
  | .rdsr a => decide (a.toNat < 2)
  | .rdd a => decide (a.toNat < outLen m)
  | .ldb a => decide (a.toNat < 200)
  | .stb a _ => decide (a.toNat < 200)
  | .iota a => decide (a.toNat < 24)
  | .round a => decide (a.toNat < 24)
  | .nop => true
  | .clr => true
  | .init _ => true
  | .absb _ => true
  | .final => true
  | .theta => true
  | .rhopi => true
  | .chi => true
  | .perm => true

/-- Every digest fits the 200-byte view (R111). -/
theorem outLen_le_64 (m : BitVec 2) : outLen m ≤ 64 := by
  revert m; decide

/-- A digest index in range is a byte index (R37: the digest window is inside the state). -/
theorem byteIndex_of_outLen {a : Byte} {m : BitVec 2} (h : a.toNat < outLen m) : a.toNat < 200 := by
  have := outLen_le_64 m
  omega

end Sys2Proof.Machine
end

