-- ==== Sys2Proof/Machine/Ops.lean ====
section
/-! DEFINITION. The named operations over the state: the byte view of the lanes (spec/20_memory.md R30, R31), taking the host's next
event, responses, refusal (spec/60_exceptions.md R131) and reset (spec/70_reset_and_hazards.md R150). -/

namespace Sys2Proof.Machine

/-- The lane `k div 8` that holds byte `k` (R30). -/
def laneOfByte (k : Fin 200) : Fin 25 := ⟨k.val / 8, by omega⟩

/-- Byte `j` of a lane, least significant first (R31). -/
def laneByte (v : Lane) (j : Nat) : Byte := v.extractLsb' (8 * j) 8

/-- A lane with its byte `j` replaced and every other bit kept (R30). -/
def replaceLaneByte (v : Lane) (j : Nat) (b : Byte) : Lane :=
  (v &&& ~~~(0xFF#64 <<< (8 * j))) ||| (b.setWidth 64 <<< (8 * j))

/-- `B[k]`: bits `8·(k mod 8) + 7 .. 8·(k mod 8)` of lane `k div 8` (R30). -/
def byteAt (S : Lanes) (k : Fin 200) : Byte := laneByte S[laneOfByte k] (k.val % 8)

/-- `B[k] <- v` (R30). -/
def setByte (S : Lanes) (k : Fin 200) (v : Byte) : Lanes :=
  S.set (laneOfByte k).val (replaceLaneByte S[laneOfByte k] (k.val % 8) v) (laneOfByte k).isLt

/-- `B[k] <- B[k] ^ v` (R91, R93). -/
def xorByte (S : Lanes) (k : Fin 200) (v : Byte) : Lanes := setByte S k (byteAt S k ^^^ v)

/-- `MemRead(addr, n)`: the `n`-byte little-endian value at `addr` (R9). -/
def memRead (S : Lanes) : (addr n : Nat) → addr + n ≤ 200 → Nat
  | _, 0, _ => 0
  | addr, n + 1, h => (byteAt S ⟨addr, by omega⟩).toNat + 256 * memRead S (addr + 1) n (by omega)

/-- `MemWrite(addr, n, v)`: `B[addr + j] <- v[8j+7:8j]` for `j < n` (R9). -/
def memWrite (S : Lanes) : (addr n : Nat) → addr + n ≤ 200 → Nat → Lanes
  | _, 0, _, _ => S
  | addr, n + 1, h, v => memWrite (setByte S ⟨addr, by omega⟩ (BitVec.ofNat 8 v)) (addr + 1) n (by omega) (v / 256)

/-- The all-zero lanes (R112, R113: `A[i] <- 0` for every `i`). -/
def zeroLanes : Lanes := Vector.replicate 25 0#64

/-- The state with another architectural state. -/
def State.withArch (s : State) (σ : Arch) : State := { s with arch := σ }

/-- The state with other lanes, control registers kept (`A <- f(A)`, R9). -/
def State.withLanes (s : State) (S : Lanes) : State := s.withArch { s.arch with lanes := S }

/-- The state with other host events waiting. -/
def State.withInputs (s : State) (es : List HostEvent) : State := { s with inputs := es }

/-- The response `(c, d)` is given (R50, R63). -/
def State.respond (s : State) (c : Code) (d : Byte) : State := { s with responses := s.responses ++ [⟨c, d⟩] }

/-- The command is executed and answers `(0, d)` (R9 `respond`, R63). -/
def State.answer (s : State) (d : Byte) : State := s.respond .ok d

/-- A command that returns no data answers `(0, 0x00)` (R9, R63). -/
def State.acknowledge (s : State) : State := s.answer 0x00#8

/-- TAKING AN EXCEPTION (R131, R136): `raise Refuse(c)`. The response is `(c, 0x00)`; the architectural state keeps its
value, nothing is saved, no control is transferred. There is no return from it and nothing to restore (R137): the
next command runs as if the refused one had never been sent. -/
def State.refuse (s : State) (c : Code) : State := s.respond c 0x00#8

/-- RESET (R150): every piece of architectural state to its reset value, no response. -/
def State.resetBlock (s : State) : State := s.withArch Arch.reset

/-- The host's next event and the state with the event taken; nothing when the host does nothing (R51). -/
def State.takeEvent (s : State) : Option (HostEvent × State) :=
  match s.inputs with
  | [] => none
  | e :: es => some (e, s.withInputs es)

/-- Stages 3 to 5 of `Exec` (R52) for the command `i`: refused with BAD_PHASE when the phase does not allow it,
otherwise refused with BAD_INDEX when its index is out of range, otherwise performed. The
effect `body` may use that the index is in range. -/
def checked (i : Instr) (s : State) (body : inRange i s.arch.mode = true → Host.Outcome State Fault Refusal) :
    Host.Outcome State Fault Refusal :=
  if legal i s.arch.phase = true then
    if h : inRange i s.arch.mode = true then body h else .next (s.refuse .badIndex)
  else .next (s.refuse .badPhase)

end Sys2Proof.Machine
end

