-- ==== Sys2Proof/Machine/Control.lean ====
section
/-! DEFINITION. The control commands and the raw byte access (spec/42_variants_control.md R112 to R117). -/

namespace Sys2Proof.Machine

/-- NOP (R114): no state is read or written. -/
def execNop (s : State) : Host.Outcome State Fault Refusal :=
  checked .nop s fun _ => .next s.acknowledge

/-- CLR (R113): lanes and CURSOR to 0, PHASE to IDLE, MODE unchanged. -/
def execClr (s : State) : Host.Outcome State Fault Refusal :=
  checked .clr s fun _ =>
    .next (s.withArch { s.arch with lanes := zeroLanes, cursor := 0#8, phase := .idle }).acknowledge

/-- INIT m (R112): lanes and CURSOR to 0, MODE to `m`, PHASE to ABSORB. -/
def execInit (m : BitVec 2) (s : State) : Host.Outcome State Fault Refusal :=
  checked (.init m) s fun _ =>
    .next (s.withArch { lanes := zeroLanes, mode := m, phase := .absorb, cursor := 0#8 }).acknowledge

/-- RDSR a (R115): byte `a` of STATUS, no state written. -/
def execRdsr (a : Byte) (s : State) : Host.Outcome State Fault Refusal :=
  checked (.rdsr a) s fun h => .next (s.answer (statusByte s.arch ⟨a.toNat, of_decide_eq_true h⟩))

/-- LDB a (R116): `respond(B[a])` in any phase, no state written. -/
def execLdb (a : Byte) (s : State) : Host.Outcome State Fault Refusal :=
  checked (.ldb a) s fun h => .next (s.answer (byteAt s.arch.lanes ⟨a.toNat, of_decide_eq_true h⟩))

/-- STB a, d (R117): `B[a] <- d`, a store and not an XOR. -/
def execStb (a d : Byte) (s : State) : Host.Outcome State Fault Refusal :=
  checked (.stb a d) s fun h =>
    .next (s.withLanes (setByte s.arch.lanes ⟨a.toNat, of_decide_eq_true h⟩ d)).acknowledge

end Sys2Proof.Machine
end

