-- ==== Sys2Proof/Machine/Tables.lean ====
section
/-! DEFINITION. The constant tables (spec/10_state.md R17 to R20; spec/40_permutation.md R74). They are constants of the step function,
not fields of the state (R20). The spec supplies the numbers from general knowledge and records how it checked
them (G2, G4, G5, G6; log entry 12). -/

namespace Sys2Proof.Machine

/-- `RC[ir]`, the round constants of the iota step, by round index (R17). -/
def roundConstants : Vector Lane 24 :=
  #v[0x0000000000000001#64, 0x0000000000008082#64, 0x800000000000808A#64, 0x8000000080008000#64,
     0x000000000000808B#64, 0x0000000080000001#64, 0x8000000080008081#64, 0x8000000000008009#64,
     0x000000000000008A#64, 0x0000000000000088#64, 0x0000000080008009#64, 0x000000008000000A#64,
     0x000000008000808B#64, 0x800000000000008B#64, 0x8000000000008089#64, 0x8000000000008003#64,
     0x8000000000008002#64, 0x8000000000000080#64, 0x000000000000800A#64, 0x800000008000000A#64,
     0x8000000080008081#64, 0x8000000000008080#64, 0x0000000080000001#64, 0x8000000080008008#64]

/-- `ROTC[i]`, the rotation amounts of the fused rho+pi step, by step of the walk (R18). -/
def rotationAmounts : Vector Nat 24 :=
  #v[1, 3, 6, 10, 15, 21, 28, 36, 45, 55, 2, 14, 27, 41, 56, 8, 25, 43, 62, 18, 39, 61, 20, 44]

/-- `PILN[i]`, the target lanes of the fused rho+pi step, by step of the walk (R19). -/
def targetLanes : Vector (Fin 25) 24 :=
  #v[10, 7, 11, 17, 18, 3, 5, 16, 8, 21, 24, 4, 15, 23, 19, 13, 12, 2, 20, 14, 22, 9, 6, 1]

/-- `r[x,y]` by lane index `x + 5·y`: the rotation offsets of rho alone (R74). No command reads this table. -/
def rhoOffsets : Vector Nat 25 :=
  #v[0, 1, 62, 28, 27,
     36, 44, 6, 55, 20,
     3, 10, 43, 25, 39,
     41, 45, 15, 21, 8,
     18, 2, 61, 56, 14]

/-- One turn of the shift register of R17's check: prepend a 0 bit to the 8 bits `R[0..7]` (here bit `j` of a number is
`R[j]`), XOR `R[8]` into `R[0]`, `R[4]`, `R[5]`, `R[6]`, drop `R[8]`. -/
def shiftRegisterTurn (R : BitVec 8) : BitVec 8 :=
  (R <<< 1) ^^^ (if R.getLsbD 7 then 0b01110001#8 else 0#8)

/-- The shift register after `n` turns from `R = 10000000`, `R[0] = 1` (R17). -/
def shiftRegister : Nat → BitVec 8
  | 0 => 1#8
  | n + 1 => shiftRegisterTurn (shiftRegister n)

/-- `rc(t)` (R17). -/
def rcBit (t : Nat) : Bool := (shiftRegister (t % 255)).getLsbD 0

end Sys2Proof.Machine
end

