-- ==== Sys2Proof/Machine/Permutation.lean ====
section
/-! DEFINITION. The Permutation Engine and its six commands (spec/40_permutation.md). None of the functions reads or
writes MODE, PHASE or CURSOR (R80). Every read on a right-hand side is of the argument (R155). -/

namespace Sys2Proof.Machine

/-- `rotl64(v, n)` (R70), for every `n` as the rotation by `n mod 64` (decision D14; only 1 to 62 occur; log entry 5). -/
def rotl64 (v : Lane) (n : Nat) : Lane := (v <<< (n % 64)) ||| (v >>> (64 - n % 64))

/-- `A[x,y]`, the lane in column `x`, row `y` (R9, R11). -/
def laneAt (S : Lanes) (x y : Fin 5) : Lane := S[laneIndex x y]

/-- The lanes whose lane `(x, y)` is `f x y`, for all `x`, `y` at once. -/
def tabulateLanes (f : Fin 5 → Fin 5 → Lane) : Lanes :=
  #v[f 0 0, f 1 0, f 2 0, f 3 0, f 4 0,
     f 0 1, f 1 1, f 2 1, f 3 1, f 4 1,
     f 0 2, f 1 2, f 2 2, f 3 2, f 4 2,
     f 0 3, f 1 3, f 2 3, f 3 3, f 4 3,
     f 0 4, f 1 4, f 2 4, f 3 4, f 4 4]

/-- The five values of a function of the column. -/
def tabulateColumns (f : Fin 5 → Lane) : Vector Lane 5 := #v[f 0, f 1, f 2, f 3, f 4]

/-- `C[0..4]`: the XOR of the five lanes of each column (R71). -/
def columnParities (S : Lanes) : Vector Lane 5 :=
  tabulateColumns fun x => laneAt S x 0 ^^^ laneAt S x 1 ^^^ laneAt S x 2 ^^^ laneAt S x 3 ^^^ laneAt S x 4

/-- `D[x] = C[(x+4) mod 5] ^ rotl64(C[(x+1) mod 5], 1)` (R71; addition in `Fin 5` is modulo 5). -/
def thetaMix (C : Vector Lane 5) : Vector Lane 5 := tabulateColumns fun x => C[x + 4] ^^^ rotl64 C[x + 1] 1

/-- `theta(S)` (R71): all parities are taken before any lane is changed. -/
def theta (S : Lanes) : Lanes := tabulateLanes fun x y => laneAt S x y ^^^ (thetaMix (columnParities S))[x]

/-- One step of the rho+pi walk (R72): the carried lane `t`, rotated, goes to the target, and the displaced lane is
carried on. -/
def walkStep (T : Lanes) (t : Lane) (i : Fin 24) : Lanes × Lane :=
  (T.set targetLanes[i].val (rotl64 t rotationAmounts[i]) targetLanes[i].isLt, T[targetLanes[i]])

/-- `rhopi(S)`, the fused rho and pi steps (R72): the 24-step walk seeded with lane 1. -/
def rhopi (S : Lanes) : Lanes :=
  ((List.finRange 24).foldl (fun w i => walkStep w.1 w.2 i) (S, S[(1 : Fin 25)])).1

/-- `rho(S)` alone (R74): each lane rotated by its own offset, lane (0,0) as it is. No command applies it. -/
def rho (S : Lanes) : Lanes :=
  (tabulateLanes fun x y => rotl64 (laneAt S x y) rhoOffsets[laneIndex x y]).set 0 (laneAt S 0 0)

/-- `pi(S)` alone (R75): the lane at `(x, y)` moves, unrotated, to `(y, (2·x + 3·y) mod 5)`; read from the target, the lane at
`(x, y)` comes from `((x + 3·y) mod 5, x)`. No command applies it. -/
def pi (S : Lanes) : Lanes := tabulateLanes fun x y => laneAt S (x + 3 * y) x

/-- `chi(S)` (R76): `row[x] ^ (~row[(x+1) mod 5] & row[(x+2) mod 5])`, the row read before it is written (R155). -/
def chi (S : Lanes) : Lanes :=
  tabulateLanes fun x y => laneAt S x y ^^^ (~~~(laneAt S (x + 1) y) &&& laneAt S (x + 2) y)

/-- `iota(S, ir)` (R77). -/
def iota (S : Lanes) (ir : Fin 24) : Lanes := S.set 0 (laneAt S 0 0 ^^^ roundConstants[ir])

/-- `round(S, ir)` (R78). -/
def round (S : Lanes) (ir : Fin 24) : Lanes := iota (chi (rhopi (theta S))) ir

/-- `keccak_f(S)` (R79): the rounds in ascending order of the round index, all of them. -/
def keccakF (S : Lanes) : Lanes := (List.finRange Config.roundCount).foldl round S

/-- THETA (R81, R87). -/
def execTheta (s : State) : Host.Outcome State Fault Refusal :=
  checked .theta s fun _ => .next (s.withLanes (theta s.arch.lanes)).acknowledge

/-- RHOPI (R82, R87). -/
def execRhopi (s : State) : Host.Outcome State Fault Refusal :=
  checked .rhopi s fun _ => .next (s.withLanes (rhopi s.arch.lanes)).acknowledge

/-- CHI (R83, R87). -/
def execChi (s : State) : Host.Outcome State Fault Refusal :=
  checked .chi s fun _ => .next (s.withLanes (chi s.arch.lanes)).acknowledge

/-- IOTA a (R84, R87): `A[0] <- A[0] ^ RC[a]`. -/
def execIota (a : Byte) (s : State) : Host.Outcome State Fault Refusal :=
  checked (.iota a) s fun h =>
    .next (s.withLanes (iota s.arch.lanes ⟨a.toNat, of_decide_eq_true h⟩)).acknowledge

/-- ROUND a (R85, R87). -/
def execRound (a : Byte) (s : State) : Host.Outcome State Fault Refusal :=
  checked (.round a) s fun h =>
    .next (s.withLanes (round s.arch.lanes ⟨a.toNat, of_decide_eq_true h⟩)).acknowledge

/-- PERM (R86, R87): all 24 rounds as one step. -/
def execPerm (s : State) : Host.Outcome State Fault Refusal :=
  checked .perm s fun _ => .next (s.withLanes (keccakF s.arch.lanes)).acknowledge

end Sys2Proof.Machine
end

