-- ==== Sys2Proof/Machine/Sponge.lean ====
section
/-! DEFINITION. The Sponge Engine and its three commands (spec/41_sponge.md). The sponge functions take the rate as a free
parameter and have no result outside the range of R90 (log entry 4). -/

namespace Sys2Proof.Machine

/-- `absorb_byte(S, c, b, rate)` (R91): the byte is XORed in at the cursor; the byte that fills the block permutes at once and the
cursor returns to 0. No result unless `c < rate ≤ 200` (R90). -/
def absorbByte (S : Lanes) (c : Nat) (b : Byte) (rate : Nat) : Option (Lanes × Nat) :=
  if h : c < rate ∧ rate ≤ 200 then
    let T := xorByte S ⟨c, by omega⟩ b
    if c + 1 = rate then some (keccakF T, 0) else some (T, c + 1)
  else none

/-- The absorb loop of R92 from a cursor `c`. -/
def absorbFrom (S : Lanes) (c : Nat) (M : List Byte) (rate : Nat) : Option (Lanes × Nat) :=
  match M with
  | [] => some (S, c)
  | b :: M' =>
    match absorbByte S c b rate with
    | some (T, c') => absorbFrom T c' M' rate
    | none => none

/-- `absorb(S, M, rate)` (R92): the cursor starts at 0; the last cursor is `lastBlockOffset`. -/
def absorb (S : Lanes) (M : List Byte) (rate : Nat) : Option (Lanes × Nat) :=
  if 1 ≤ rate ∧ rate ≤ 200 then absorbFrom S 0 M rate else none

/-- `pad(S, offset, domainByte, rate)` (R93): the two padding XORs, one after the other on the same storage. No result unless
`offset < rate ≤ 200` (R90). -/
def pad (S : Lanes) (offset : Nat) (domainByte : Byte) (rate : Nat) : Option Lanes :=
  if h : offset < rate ∧ rate ≤ 200 then
    some (xorByte (xorByte S ⟨offset, by omega⟩ domainByte) ⟨rate - 1, by omega⟩ Config.finalPadByte)
  else none

/-- The first `n` bytes of the byte view (R94 step 4). -/
def firstBytes (S : Lanes) (n : Nat) (h : n ≤ 200) : List Byte :=
  (List.finRange n).map fun k => byteAt S ⟨k.val, by omega⟩

/-- `squeeze(S, outLen, domainByte, rate, offset)` (R94): pad, permute once, copy the first `outLen` bytes. No result unless
`1 ≤ outLen ≤ rate ≤ 200` and `offset < rate` (R90). -/
def squeeze (S : Lanes) (outLen : Nat) (domainByte : Byte) (rate offset : Nat) : Option (Lanes × List Byte) :=
  if h : 1 ≤ outLen ∧ outLen ≤ rate ∧ rate ≤ 200 then
    match pad S offset domainByte rate with
    | some T => some (keccakF T, firstBytes (keccakF T) outLen (by omega))
    | none => none
  else none

/-- The one-shot function of the variant `m`, `sha3_224` .. `sha3_512` (R118): absorb into the zero state, squeeze once. -/
def sha3 (m : BitVec 2) (M : List Byte) : Option (List Byte) :=
  match absorb zeroLanes M (rate m) with
  | some (S, offset) => (squeeze S (outLen m) Config.domainByte (rate m) offset).map Prod.snd
  | none => none

/-- ABSB d (R95): `(A, CURSOR) <- absorb_byte(A, CURSOR, d, rate(MODE))`. Where CURSOR is outside the block, which no run
reaches (R22), `absorb_byte` has no result and the machine stops (log entry 4). -/
def execAbsb (d : Byte) (s : State) : Host.Outcome State Fault Refusal :=
  checked (.absb d) s fun _ =>
    match absorbByte s.arch.lanes s.arch.cursor.toNat d (rate s.arch.mode) with
    | some (S, c) => .next (s.withArch { s.arch with lanes := S, cursor := BitVec.ofNat 8 c }).acknowledge
    | none => .fault .cursorOutsideBlock

/-- FINAL (R96): pad at CURSOR, permute exactly once, PHASE to DONE; MODE and CURSOR kept. -/
def execFinal (s : State) : Host.Outcome State Fault Refusal :=
  checked .final s fun _ =>
    match pad s.arch.lanes s.arch.cursor.toNat Config.domainByte (rate s.arch.mode) with
    | some S => .next (s.withArch { s.arch with lanes := keccakF S, phase := .done }).acknowledge
    | none => .fault .cursorOutsideBlock

/-- RDD a (R97): `respond(B[a])`, no state written. -/
def execRdd (a : Byte) (s : State) : Host.Outcome State Fault Refusal :=
  checked (.rdd a) s fun h =>
    .next (s.answer (byteAt s.arch.lanes ⟨a.toNat, byteIndex_of_outLen (of_decide_eq_true h)⟩))

end Sys2Proof.Machine
end

