-- ==== Sys2Proof/Machine/Dispatch.lean ====
section
/-! DEFINITION. Stages 3 to 5 of `Exec` for each command (spec/30_encoding.md R52): one arm per constructor. -/

namespace Sys2Proof.Machine

def exec (i : Instr) (s : State) : Host.Outcome State Fault Refusal :=
  match i with
  | .nop => Sys2Proof.Machine.execNop s
  | .clr => Sys2Proof.Machine.execClr s
  | .init m => Sys2Proof.Machine.execInit m s
  | .rdsr a => Sys2Proof.Machine.execRdsr a s
  | .absb d => Sys2Proof.Machine.execAbsb d s
  | .final => Sys2Proof.Machine.execFinal s
  | .rdd a => Sys2Proof.Machine.execRdd a s
  | .ldb a => Sys2Proof.Machine.execLdb a s
  | .stb a d => Sys2Proof.Machine.execStb a d s
  | .theta => Sys2Proof.Machine.execTheta s
  | .rhopi => Sys2Proof.Machine.execRhopi s
  | .chi => Sys2Proof.Machine.execChi s
  | .iota a => Sys2Proof.Machine.execIota a s
  | .round a => Sys2Proof.Machine.execRound a s
  | .perm => Sys2Proof.Machine.execPerm s

end Sys2Proof.Machine
end

