-- ==== Sys2Proof/Machine/Step.lean ====
section
/-! DEFINITION. One step of the machine: one event of the host (spec/00_scope.md R7; spec/30_encoding.md R51, R52). -/

namespace Sys2Proof.Machine

/-- One step. A command word is decoded (stages 1 and 2 of R52, refused with ILLEGAL_OPCODE or RESERVED_FIELD) and the command
executed; a reset puts the block at its reset state, alone or in the middle of a command, which is then
abandoned (R150, R151); with no event the block holds its state (R143). -/
def step (s : State) : Host.Outcome State Fault Refusal :=
  match s.takeEvent with
  | none => .next s
  | some (.word w, t) =>
    match decode w with
    | .command i => exec i t
    | .illegalOpcode => .next (t.refuse .illegalOpcode)
    | .reservedField => .next (t.refuse .reservedField)
  | some (.reset, t) => .next t.resetBlock
  | some (.abandoned _, t) => .next t.resetBlock

/-- The state in which the host presents the given command word next: the word is put before the events already waiting
(log entry 2). A command word is `nbits` = 32 bits; the bits above `nbits` are 0. -/
def State.withFetchWord (s : State) (nbits w : Nat) : State :=
  s.withInputs (.word (BitVec.ofNat 32 (w % 2 ^ nbits)) :: s.inputs)

end Sys2Proof.Machine
end

