-- ==== Sys2Proof/Machine/Script.lean ====
section
/-! DEFINITION. Command scripts and pseudo-commands (spec/30_encoding.md R61, R62; spec/42_variants_control.md R118). They are
text and abbreviations that turn into commands before anything is sent; the block never sees them (log entry 14). -/

namespace Sys2Proof.Machine

/-- The pseudo-commands (R62). -/
inductive Pseudo where
  /-- `ABSORB b0 .. b(n-1)` -/
  | absorb (M : List Byte)
  /-- `DIGEST m` -/
  | digest (m : BitVec 2)
  /-- `HASH m, b0 .. b(n-1)` -/
  | hash (m : BitVec 2) (M : List Byte)
  /-- `SHA3_224 bytes` -/
  | sha3_224 (M : List Byte)
  /-- `SHA3_256 bytes` -/
  | sha3_256 (M : List Byte)
  /-- `SHA3_384 bytes` -/
  | sha3_384 (M : List Byte)
  /-- `SHA3_512 bytes` -/
  | sha3_512 (M : List Byte)
  /-- `LOAD b0 .. b199` -/
  | load (b : Vector Byte 200)
  /-- `DUMP` -/
  | dump
  /-- `ROUNDX ir` -/
  | roundx (ir : Byte)
  /-- `PERMX` -/
  | permx
  /-- `STATUS` -/
  | status
  deriving DecidableEq, Repr

/-- `ABSORB` (R62): one ABSB for each byte, none for the empty message. -/
def absorbScript (M : List Byte) : List Instr := M.map .absb

/-- `DIGEST m` (R62): `RDD 0 .. RDD outLen(m)-1`. -/
def digestScript (m : BitVec 2) : List Instr := (List.range (outLen m)).map fun k => .rdd (BitVec.ofNat 8 k)

/-- `HASH m, M` (R62): the command sequence of the one-shot function of variant `m` (R118). -/
def hashScript (m : BitVec 2) (M : List Byte) : List Instr :=
  .init m :: (absorbScript M ++ .final :: digestScript m)

/-- The expansion of a pseudo-command (R62). -/
def expand : Pseudo → List Instr
  | .absorb M => absorbScript M
  | .digest m => digestScript m
  | .hash m M => hashScript m M
  | .sha3_224 M => hashScript 0#2 M
  | .sha3_256 M => hashScript 1#2 M
  | .sha3_384 M => hashScript 2#2 M
  | .sha3_512 M => hashScript 3#2 M
  | .load b => (List.finRange 200).map fun k => .stb (BitVec.ofNat 8 k.val) b[k]
  | .dump => (List.range 200).map fun k => .ldb (BitVec.ofNat 8 k)
  | .roundx ir => [.theta, .rhopi, .chi, .iota ir]
  | .permx => (List.range 24).map fun ir => .round (BitVec.ofNat 8 ir)
  | .status => [.rdsr 0#8, .rdsr 1#8]

/-- The host's events that present the words of the commands, in order (R6 (a): a program is the sequence of commands). -/
def present (is : List Instr) : List HostEvent := is.map fun i => .word (encode i)

/-- The digits of a script's numbers, each at the place of its value (R61: decimal or hexadecimal; R9 writes `A` to `F`). -/
def scriptDigits : List Char := "0123456789ABCDEF".toList

/-- The value of a digit: its place among the digits, a lower-case letter read as its capital (log entry 14). -/
def digitValue (c : Char) : Option Nat := scriptDigits.findIdx? (· == c.toUpper)

/-- The number the digits `cs` write in base `b` after the value `acc`. -/
def readDigits (b acc : Nat) : List Char → Option Nat
  | [] => some acc
  | c :: cs =>
    match digitValue c with
    | some v => if v < b then readDigits b (b * acc + v) cs else none
    | none => none

/-- A number of a script: `0x` and hexadecimal digits, or decimal digits (R61). -/
def readNumber : List Char → Option Nat
  | '0' :: 'x' :: c :: cs => readDigits 16 0 (c :: cs)
  | c :: cs => readDigits 10 0 (c :: cs)
  | [] => none

/-- A number below `2^n`, as a field of `n` bits. -/
def readField (n : Nat) (cs : List Char) : Option (BitVec n) :=
  match readNumber cs with
  | some v => if v < 2 ^ n then some (BitVec.ofNat n v) else none
  | none => none

/-- The operand of INIT: a mode number or a variant's name (R61). -/
def readMode (cs : List Char) : Option (BitVec 2) :=
  if cs = ['S', 'H', 'A', '3', '_', '2', '2', '4'] then some 0#2
  else if cs = ['S', 'H', 'A', '3', '_', '2', '5', '6'] then some 1#2
  else if cs = ['S', 'H', 'A', '3', '_', '3', '8', '4'] then some 2#2
  else if cs = ['S', 'H', 'A', '3', '_', '5', '1', '2'] then some 3#2
  else readField 2 cs

/-- A line without its comment and without the response written after `->` (R61). -/
def commandText : List Char → List Char
  | [] => []
  | ';' :: _ => []
  | '-' :: '>' :: _ => []
  | c :: cs => c :: commandText cs

/-- The pieces of a line between blanks and commas. -/
def splitPieces : List Char → List (List Char)
  | [] => []
  | c :: cs =>
    if c = ' ' ∨ c = '\t' ∨ c = ',' then [] :: splitPieces cs
    else
      match splitPieces cs with
      | [] => [[c]]
      | t :: ts => (c :: t) :: ts

/-- The command a script line writes: mnemonic, then the operands in the order `a`, `d` (R61). `none` for a line
that writes no command. -/
def readLine (line : List Char) : Option Instr :=
  match (splitPieces (commandText line)).filter (· ≠ []) with
  | [['N', 'O', 'P']] => some .nop
  | [['C', 'L', 'R']] => some .clr
  | [['I', 'N', 'I', 'T'], m] => (readMode m).map .init
  | [['R', 'D', 'S', 'R'], a] => (readField 8 a).map .rdsr
  | [['A', 'B', 'S', 'B'], d] => (readField 8 d).map .absb
  | [['F', 'I', 'N', 'A', 'L']] => some .final
  | [['R', 'D', 'D'], a] => (readField 8 a).map .rdd
  | [['L', 'D', 'B'], a] => (readField 8 a).map .ldb
  | [['S', 'T', 'B'], a, d] =>
    match readField 8 a, readField 8 d with
    | some a', some d' => some (.stb a' d')
    | _, _ => none
  | [['T', 'H', 'E', 'T', 'A']] => some .theta
  | [['R', 'H', 'O', 'P', 'I']] => some .rhopi
  | [['C', 'H', 'I']] => some .chi
  | [['I', 'O', 'T', 'A'], a] => (readField 8 a).map .iota
  | [['R', 'O', 'U', 'N', 'D'], a] => (readField 8 a).map .round
  | [['P', 'E', 'R', 'M']] => some .perm
  | _ => none

end Sys2Proof.Machine
end

