-- ==== Sys2Proof/Safety.lean ====
section
/-! DEFINITION. What counts as a safe run: the invariant of the reachable states (spec/10_state.md R22), runs of the machine, and
the words in which claims speak of commands. -/

namespace Sys2Proof.Machine

/-- The invariant of R22: CURSOR is below `rate(MODE)`, and is 0 in phase IDLE. (That PHASE is one of three values is its
type.) -/
structure Arch.Inv (σ : Arch) : Prop where
  /-- R22 (ii) -/
  cursor_lt_rate : σ.cursor.toNat < rate σ.mode
  /-- R22 (iii) -/
  idle_cursor : σ.phase = .idle → σ.cursor = 0#8

/-- The invariant of a machine state is that of its architectural state. -/
def State.Inv (s : State) : Prop := s.arch.Inv

/-- `n` steps of the machine, stopping at the first fault or refusal. -/
def State.run (s : State) : Nat → Host.Outcome State Fault Refusal
  | 0 => .next s
  | n + 1 =>
    match step s with
    | .next t => t.run n
    | .fault r => .fault r
    | .refused r => .refused r

/-- A state some run reaches: from reset, with any events presented by the host. -/
def State.Reachable (s : State) : Prop :=
  ∃ (es : List HostEvent) (n : Nat), State.run { State.reset with inputs := es } n = .next s

/-- A safe run never stops: every number of steps answers a next state (R159). -/
def State.Safe (s : State) : Prop := ∀ n, ∃ t, s.run n = .next t

/-- The step from `s` to `t` answered `(0, d)` and nothing else (R63). -/
def Answered (s t : State) (d : Byte) : Prop := t.responses = s.responses ++ [⟨.ok, d⟩]

/-- The control registers and the waiting events are the same in both states. -/
def ControlKept (s t : State) : Prop :=
  t.arch.mode = s.arch.mode ∧ t.arch.phase = s.arch.phase ∧ t.arch.cursor = s.arch.cursor ∧ t.inputs = s.inputs

/-- The command `i` at `s` is executed, with the state `t` after it. -/
def Executes (i : Instr) (s t : State) : Prop := exec i s = .next t ∧ ∃ d, Answered s t d

/-- The command `i` at `s` is refused with the code `c`: nothing but the response changes (R131). -/
def RefusedWith (i : Instr) (s : State) (c : Code) : Prop := exec i s = .next (s.refuse c)

/-- Every word with the opcode `op` and a bit of `mask` set is refused with RESERVED_FIELD (R57 (b)). -/
def ReservedBitsRefused (op : Byte) (mask : Word) : Prop :=
  ∀ (s : State) (w : Word) (es : List HostEvent), s.inputs = .word w :: es → opField w = op → w &&& mask ≠ 0#32 →
    step s = .next ((s.withInputs es).refuse .reservedField)

/-- The events are command words that run to their responses: the host does not reset the block. -/
def wordsOnly (es : List HostEvent) : Bool :=
  es.all fun e => match e with
    | .word _ => true
    | .reset => false
    | .abandoned _ => false

/-- A command that could end the phase DONE or zero the state (R100). -/
def endsDigest : HostEvent → Bool
  | .word w =>
    match decode w with
    | .command (.init _) => true
    | .command .clr => true
    | _ => false
  | .reset => true
  | .abandoned _ => true

end Sys2Proof.Machine
end

