-- ==== Sys2Proof/Certificates/Slice0/Obligations.lean ====
section
/-! DEFINITION. The statements about the block, for the provers. Each docstring names the rules of spec/ it formalises. The
fields `inputs` and `responses` are the model's form of the block's two ports (log entry 1): a word the host presents is the
first of `inputs`, and a response is added at the end of `responses`. -/

open Sys2Proof Sys2Proof.Machine

/-! ### Encoding -/

/-- R55, R56: decoding the word of a command gives the command back, for every operand value the encoding admits. -/
def Obligations.DecodeOfEncode : Prop := ∀ i : Instr, decode (encode i) = .command i

/-- R55, R56: a word that decodes to a command is the word of that command: no two words decode to the same command, and no
bit of the word is dropped. -/
def Obligations.EncodeOfDecode : Prop := ∀ (w : Word) (i : Instr), decode w = .command i → encode i = w

/-- R54: a word is a well-formed instance of a command exactly when `(w & mask) = match` for the command's row. -/
def Obligations.WordIsInstanceExactlyWhenMaskMatches : Prop :=
  ∀ (w : Word) (j : Instr), w &&& rowMask j = rowMatch j ↔ ∃ i, decode w = .command i ∧ opcodeOf i = opcodeOf j

/-- R57 (a), (b), R56: the words that decode to no command. A word with an opcode outside the fifteen is an illegal
opcode whatever its other bits are, and only such a word is; a word is a reserved-field word exactly when its opcode is
that of some command and a must-be-zero bit of that command's format is 1. -/
def Obligations.UndecodableWords : Prop :=
  (∀ w : Word, decode w = .illegalOpcode ↔
    opField w ∉ [0x00#8, 0x01#8, 0x02#8, 0x03#8, 0x10#8, 0x11#8, 0x12#8, 0x20#8, 0x21#8, 0x30#8, 0x31#8, 0x32#8, 0x33#8,
      0x34#8, 0x35#8]) ∧
  (∀ w : Word, decode w = .reservedField ↔ ∃ i, opcodeOf i = opField w ∧ w &&& mbz (formatOf i) ≠ 0#32)

/-- R55: words written out from the opcode map decode to the commands they stand for, one of each family at least. -/
def Obligations.WrittenOutWordsDecode : Prop :=
  decode 0x00000000#32 = .command .nop ∧ decode 0x02010000#32 = .command (.init 1#2) ∧
  decode 0x10000061#32 = .command (.absb 0x61#8) ∧ decode 0x121B0000#32 = .command (.rdd 27#8) ∧
  decode 0x21C70080#32 = .command (.stb 199#8 0x80#8) ∧ decode 0x34170000#32 = .command (.round 23#8)

/-- Log entry 15 (the model's choice of `wellFormed`), R59, R120: a command is executed in some state exactly when its
index operand is in the range the opcode table gives. -/
def Obligations.WellFormedExactlyWhenExecutable : Prop :=
  ∀ i : Instr, i.wellFormed = true ↔ ∃ s t : State, Executes i s t

/-! ### The step -/

/-- R52: when the word the host presents decodes to a command, the step is that command's execution at the state with the
word taken. -/
def Obligations.StepRunsDecodedCommand : Prop :=
  ∀ (s : State) (w : Word) (es : List HostEvent) (i : Instr), s.inputs = .word w :: es → decode w = .command i →
    step s = exec i (s.withInputs es)

/-- R52 stages 1 and 2, R131: a word that decodes to no command is refused with its code, and nothing else changes. -/
def Obligations.StepRefusesUndecodableWords : Prop :=
  ∀ (s : State) (w : Word) (es : List HostEvent), s.inputs = .word w :: es →
    (decode w = .illegalOpcode → ∃ t, step s = .next t ∧ t.arch = s.arch ∧ t.inputs = es ∧
      t.responses = s.responses ++ [⟨.illegalOpcode, 0x00#8⟩]) ∧
    (decode w = .reservedField → ∃ t, step s = .next t ∧ t.arch = s.arch ∧ t.inputs = es ∧
      t.responses = s.responses ++ [⟨.reservedField, 0x00#8⟩])

/-- R143: when no command is presented the block holds its state. -/
def Obligations.IdleBlockHoldsState : Prop := ∀ s : State, s.inputs = [] → step s = .next s

/-- R150: the whole effect of a reset is to put every piece of architectural state at its reset value; no response. -/
def Obligations.ResetFromAnyState : Prop :=
  ∀ (s : State) (es : List HostEvent), s.inputs = .reset :: es →
    ∃ t, step s = .next t ∧ (∀ i : Fin 25, t.arch.lanes[i] = 0#64) ∧ t.arch.mode = 0#2 ∧ t.arch.phase = .idle ∧
      t.arch.cursor = 0#8 ∧ t.responses = s.responses ∧ t.inputs = es

/-- R151, with the event `abandoned` of log entry 8 (the model's form of it): a command executing when reset arrives gives
no response and none of its effects survive. -/
def Obligations.ResetAbandonsCommand : Prop :=
  ∀ (s : State) (w : Word) (es : List HostEvent), s.inputs = .abandoned w :: es →
    ∃ t, step s = .next t ∧ t.arch = Arch.reset ∧ t.responses = s.responses ∧ t.inputs = es

/-- R23: the architectural state after reset; the state after CLR equals it except that CLR keeps MODE. -/
def Obligations.ResetValues : Prop :=
  (∀ i : Fin 25, State.reset.arch.lanes[i] = 0#64) ∧ (∀ k : Fin 200, byteAt State.reset.arch.lanes k = 0#8) ∧
  State.reset.arch.mode = 0#2 ∧ State.reset.arch.phase = .idle ∧ State.reset.arch.cursor = 0#8 ∧
  ∀ s : State, ∃ t, exec .clr s = .next t ∧ t.arch = { State.reset.arch with mode := s.arch.mode }

/-- R152 (derived by the spec): the first command after reset. ABSB, FINAL and RDD are refused with BAD_PHASE; every
other command with its index in range is executed. -/
def Obligations.FirstCommandAfterReset : Prop :=
  ∀ (i : Instr) (s : State), s.arch = Arch.reset →
    ((∃ d, i = .absb d) ∨ i = .final ∨ (∃ a, i = .rdd a) → RefusedWith i s .badPhase) ∧
    ((∀ d, i ≠ .absb d) ∧ i ≠ .final ∧ (∀ a, i ≠ .rdd a) ∧ i.wellFormed = true → ∃ t, Executes i s t)

/-- R50, R51: each command word gets exactly one response, and is taken exactly once; the events behind it stay. -/
def Obligations.OneResponsePerWord : Prop :=
  ∀ (s t : State) (w : Word) (es : List HostEvent), s.inputs = .word w :: es → step s = .next t →
    t.inputs = es ∧ ∃ r, t.responses = s.responses ++ [r]

/-- R51, R159: from a state that meets R22's invariant, any list of command words is executed to its end, in order, with
one response each; a longer run holds the state. -/
def Obligations.CommandWordsRunToTheEnd : Prop :=
  ∀ s : State, s.Inv → wordsOnly s.inputs = true → ∀ n, s.inputs.length ≤ n →
    ∃ t, s.run n = .next t ∧ t.inputs = [] ∧ t.responses.length = s.responses.length + s.inputs.length ∧
      s.responses <+: t.responses

/-! ### The invariant -/

/-- R22 (derived by the spec): the invariant holds of the reset state. -/
def Obligations.InvariantAtReset : Prop := State.reset.Inv

/-- R22 (derived by the spec): every step keeps the invariant: CURSOR below `rate(MODE)`, and 0 in phase IDLE. -/
def Obligations.StepKeepsInvariant : Prop := ∀ s t : State, s.Inv → step s = .next t → t.Inv

/-- R159: from every state that meets R22's invariant the machine never stops: no fault, no refusal of the model, for any
number of steps and whatever the host presents. -/
def Obligations.NoStopFromTheInvariant : Prop := ∀ s : State, s.Inv → s.Safe

/-- Log entry 4 (the model's choice for states no run reaches): ABSB and FINAL in phase ABSORB stop by name when CURSOR is
outside the rate block, where R90 and R91 give the sponge functions no result. -/
def Obligations.CursorOutsideBlockStops : Prop :=
  ∀ s : State, s.arch.phase = .absorb → rate s.arch.mode ≤ s.arch.cursor.toNat →
    (∀ d, exec (.absb d) s = .fault .cursorOutsideBlock) ∧ exec .final s = .fault .cursorOutsideBlock

/-! ### Refusals -/

/-- R131: a refused word, whichever of the four codes it is refused with, changes no architectural state and answers
`(code, 0x00)`; the block does not stop, and what the host sends next is all still there. -/
def Obligations.RefusalChangesNothing : Prop :=
  ∀ (s t : State) (w : Word) (es : List HostEvent) (c : Code) (d : Byte), s.inputs = .word w :: es → step s = .next t →
    t.responses = s.responses ++ [⟨c, d⟩] → c ≠ .ok → t.arch = s.arch ∧ t.inputs = es ∧ d = 0x00#8

/-- R120: the legality table. A command is answered BAD_PHASE exactly where the table says "refused", in every phase and with
any operand. -/
def Obligations.LegalityTable : Prop :=
  ∀ (i : Instr) (s : State),
    exec i s = .next (s.refuse .badPhase) ↔
      (match i with
        | .nop => False
        | .clr => False
        | .init _ => False
        | .rdsr _ => False
        | .ldb _ => False
        | .absb _ => s.arch.phase = .idle ∨ s.arch.phase = .done
        | .final => s.arch.phase = .idle ∨ s.arch.phase = .done
        | .rdd _ => s.arch.phase = .idle ∨ s.arch.phase = .absorb
        | .stb _ _ => s.arch.phase = .absorb ∨ s.arch.phase = .done
        | .theta => s.arch.phase = .absorb ∨ s.arch.phase = .done
        | .rhopi => s.arch.phase = .absorb ∨ s.arch.phase = .done
        | .chi => s.arch.phase = .absorb ∨ s.arch.phase = .done
        | .iota _ => s.arch.phase = .absorb ∨ s.arch.phase = .done
        | .round _ => s.arch.phase = .absorb ∨ s.arch.phase = .done
        | .perm => s.arch.phase = .absorb ∨ s.arch.phase = .done)

/-- R59, R38: the index ranges. A command is answered BAD_INDEX exactly when its phase is legal and its index is
outside the range the table gives; the index is never reduced. -/
def Obligations.IndexRanges : Prop :=
  ∀ (i : Instr) (s : State),
    exec i s = .next (s.refuse .badIndex) ↔
      (match i with
        | .rdsr a => 1 < a.toNat
        | .rdd a => s.arch.phase = .done ∧ outLen s.arch.mode ≤ a.toNat
        | .ldb a => 200 ≤ a.toNat
        | .stb a _ => s.arch.phase = .idle ∧ 200 ≤ a.toNat
        | .iota a => s.arch.phase = .idle ∧ 24 ≤ a.toNat
        | .round a => s.arch.phase = .idle ∧ 24 ≤ a.toNat
        | .nop => False
        | .clr => False
        | .init _ => False
        | .absb _ => False
        | .final => False
        | .theta => False
        | .rhopi => False
        | .chi => False
        | .perm => False)

/-- R133, R52: when several causes apply to one word, the code reported is the lowest-numbered one. -/
def Obligations.LowestCodeIsReported : Prop :=
  ∀ (s t : State) (w : Word) (es : List HostEvent) (r : Response), s.inputs = .word w :: es → step s = .next t →
    t.responses = s.responses ++ [r] →
    (decode w = .illegalOpcode → r.code = .illegalOpcode) ∧
    (decode w = .reservedField → r.code = .reservedField) ∧
    (∀ i, decode w = .command i →
      (legal i s.arch.phase = false → r.code = .badPhase) ∧
      (legal i s.arch.phase = true → inRange i s.arch.mode = false → r.code = .badIndex) ∧
      (legal i s.arch.phase = true → inRange i s.arch.mode = true → r.code = .ok))

/-- R137 (derived by the spec): a refused command, sent again in the state it left, is refused again with the same
code. -/
def Obligations.RefusedAgain : Prop :=
  ∀ (i : Instr) (s t : State) (c : Code), RefusedWith i s c → exec i s = .next t → RefusedWith i t c

/-! ### Control commands -/

/-- R114: NOP. -/
def Obligations.NopRule : Prop :=
  encode .nop = 0x00000000#32 ∧ ReservedBitsRefused 0x00#8 0x00FFFFFF#32 ∧
  ∀ s : State, ∃ t, exec .nop s = .next t ∧ Answered s t 0x00#8 ∧ t.arch = s.arch ∧ t.inputs = s.inputs

/-- R113: CLR, in every phase; the state after it is the reset state but for MODE. -/
def Obligations.ClrRule : Prop :=
  encode .clr = 0x01000000#32 ∧ ReservedBitsRefused 0x01#8 0x00FFFFFF#32 ∧
  ∀ s : State, ∃ t, exec .clr s = .next t ∧ Answered s t 0x00#8 ∧ (∀ i : Fin 25, t.arch.lanes[i] = 0#64) ∧
    t.arch.cursor = 0#8 ∧ t.arch.phase = .idle ∧ t.arch.mode = s.arch.mode ∧
    t.arch = { Arch.reset with mode := s.arch.mode } ∧ t.inputs = s.inputs

/-- R112: INIT m, in every phase. -/
def Obligations.InitRule : Prop :=
  (∀ m : BitVec 2, encode (.init m) = 0x02000000#32 ||| (m.setWidth 32 <<< 16)) ∧
  ReservedBitsRefused 0x02#8 0x00FCFFFF#32 ∧
  ∀ (m : BitVec 2) (s : State), ∃ t, exec (.init m) s = .next t ∧ Answered s t 0x00#8 ∧
    (∀ i : Fin 25, t.arch.lanes[i] = 0#64) ∧ t.arch.cursor = 0#8 ∧ t.arch.mode = m ∧ t.arch.phase = .absorb ∧
    t.inputs = s.inputs

/-- R115, R15: RDSR a, in every phase: CURSOR for `a` = 0, `{0b0000, PHASE, MODE}` for `a` = 1, refused for `a ≥ 2`; no
state is written. -/
def Obligations.RdsrRule : Prop :=
  (∀ a : Byte, encode (.rdsr a) = 0x03000000#32 ||| (a.setWidth 32 <<< 16)) ∧
  ReservedBitsRefused 0x03#8 0x0000FFFF#32 ∧
  (∀ s : State, ∃ t, exec (.rdsr 0#8) s = .next t ∧ Answered s t s.arch.cursor ∧ t.arch = s.arch ∧ t.inputs = s.inputs) ∧
  (∀ s : State, ∃ t, exec (.rdsr 1#8) s = .next t ∧
    Answered s t (0#4 ++ (match s.arch.phase with | .idle => 0#2 | .absorb => 1#2 | .done => 2#2) ++ s.arch.mode) ∧
    t.arch = s.arch ∧ t.inputs = s.inputs) ∧
  ∀ (a : Byte) (s : State), 2 ≤ a.toNat → RefusedWith (.rdsr a) s .badIndex

/-! ### Raw byte access -/

/-- R116: LDB a, in every phase: answers `B[a]`, refused for `a ≥ 200`; no state is written. -/
def Obligations.LdbRule : Prop :=
  (∀ a : Byte, encode (.ldb a) = 0x20000000#32 ||| (a.setWidth 32 <<< 16)) ∧
  ReservedBitsRefused 0x20#8 0x0000FFFF#32 ∧
  (∀ (a : Byte) (s : State) (h : a.toNat < 200), ∃ t, exec (.ldb a) s = .next t ∧
    Answered s t ((s.arch.lanes[a.toNat / 8] >>> (8 * (a.toNat % 8))).setWidth 8) ∧ t.arch = s.arch ∧
    t.inputs = s.inputs) ∧
  ∀ (a : Byte) (s : State), 200 ≤ a.toNat → RefusedWith (.ldb a) s .badIndex

/-- R117: STB a, d, in phase IDLE: `B[a] <- d` and every other byte, MODE, PHASE and CURSOR unchanged; refused in the other
phases, and for `a ≥ 200`. -/
def Obligations.StbRule : Prop :=
  (∀ a d : Byte, encode (.stb a d) = 0x21000000#32 ||| (a.setWidth 32 <<< 16) ||| d.setWidth 32) ∧
  ReservedBitsRefused 0x21#8 0x0000FF00#32 ∧
  (∀ (a d : Byte) (s : State), s.arch.phase ≠ .idle → RefusedWith (.stb a d) s .badPhase) ∧
  (∀ (a d : Byte) (s : State), s.arch.phase = .idle → 200 ≤ a.toNat → RefusedWith (.stb a d) s .badIndex) ∧
  ∀ (a d : Byte) (s : State) (h : a.toNat < 200), s.arch.phase = .idle →
    ∃ t, exec (.stb a d) s = .next t ∧ Answered s t 0x00#8 ∧ ControlKept s t ∧ byteAt t.arch.lanes ⟨a.toNat, h⟩ = d ∧
      ∀ k : Fin 200, k.val ≠ a.toNat → byteAt t.arch.lanes k = byteAt s.arch.lanes k

/-! ### Sponge commands -/

/-- R95: ABSB d. Inside the block the byte at CURSOR is XORed with `d`, every other byte is kept and CURSOR grows by one; the
byte that fills the block permutes the state so made and CURSOR returns to 0. MODE and PHASE are unchanged. Refused in the
other phases; there is no BAD_INDEX. (CURSOR below the rate is R22's invariant.) -/
def Obligations.AbsbRule : Prop :=
  (∀ d : Byte, encode (.absb d) = 0x10000000#32 ||| d.setWidth 32) ∧
  ReservedBitsRefused 0x10#8 0x00FFFF00#32 ∧
  (∀ (d : Byte) (s : State), s.arch.phase ≠ .absorb → RefusedWith (.absb d) s .badPhase) ∧
  ∀ (d : Byte) (s : State), s.arch.phase = .absorb → s.arch.cursor.toNat < rate s.arch.mode →
    ∃ (t : State) (T : Lanes), exec (.absb d) s = .next t ∧ Answered s t 0x00#8 ∧ t.arch.mode = s.arch.mode ∧
      t.arch.phase = .absorb ∧ t.inputs = s.inputs ∧
      (∀ k : Fin 200, byteAt T k =
        if k.val = s.arch.cursor.toNat then byteAt s.arch.lanes k ^^^ d else byteAt s.arch.lanes k) ∧
      (s.arch.cursor.toNat + 1 < rate s.arch.mode →
        t.arch.lanes = T ∧ t.arch.cursor.toNat = s.arch.cursor.toNat + 1) ∧
      (s.arch.cursor.toNat + 1 = rate s.arch.mode → t.arch.lanes = keccakF T ∧ t.arch.cursor = 0#8)

/-- R96: FINAL. `B[CURSOR] ^= 0x06`, `B[rate-1] ^= 0x80` (on the same byte when CURSOR is `rate - 1`), every other byte as it
was, then one permutation; PHASE becomes DONE, MODE and CURSOR are kept. Refused in the other phases. (CURSOR below
the rate is R22's invariant.) -/
def Obligations.FinalRule : Prop :=
  encode .final = 0x11000000#32 ∧ ReservedBitsRefused 0x11#8 0x00FFFFFF#32 ∧
  (∀ s : State, s.arch.phase ≠ .absorb → RefusedWith .final s .badPhase) ∧
  ∀ s : State, s.arch.phase = .absorb → s.arch.cursor.toNat < rate s.arch.mode →
    ∃ (t : State) (T : Lanes), exec .final s = .next t ∧ Answered s t 0x00#8 ∧
      (∀ k : Fin 200, byteAt T k = byteAt s.arch.lanes k
        ^^^ (if k.val = s.arch.cursor.toNat then 0x06#8 else 0x00#8)
        ^^^ (if k.val = rate s.arch.mode - 1 then 0x80#8 else 0x00#8)) ∧
      t.arch.lanes = keccakF T ∧ t.arch.phase = .done ∧ t.arch.mode = s.arch.mode ∧ t.arch.cursor = s.arch.cursor ∧
      t.inputs = s.inputs

/-- R97: RDD a, in phase DONE: answers `B[a]` for `a < outLen(MODE)`, refused for a larger `a` and in the other phases; no
state is written. -/
def Obligations.RddRule : Prop :=
  (∀ a : Byte, encode (.rdd a) = 0x12000000#32 ||| (a.setWidth 32 <<< 16)) ∧
  ReservedBitsRefused 0x12#8 0x0000FFFF#32 ∧
  (∀ (a : Byte) (s : State), s.arch.phase ≠ .done → RefusedWith (.rdd a) s .badPhase) ∧
  (∀ (a : Byte) (s : State), s.arch.phase = .done →
    outLen s.arch.mode ≤ a.toNat → RefusedWith (.rdd a) s .badIndex) ∧
  ∀ (a : Byte) (s : State) (h : a.toNat < 200), s.arch.phase = .done → a.toNat < outLen s.arch.mode →
    ∃ t, exec (.rdd a) s = .next t ∧ Answered s t (byteAt s.arch.lanes ⟨a.toNat, h⟩) ∧ t.arch = s.arch ∧
      t.inputs = s.inputs

/-! ### Transform commands -/

/-- R81, R71: THETA, in phase IDLE: every lane `(x, y)` is XORed with `C[(x+4) mod 5]` and `C[(x+1) mod 5]` rotated by 1, where
`C[x]` is the parity of column `x` before the command. MODE, PHASE and CURSOR unchanged; refused in the other phases. -/
def Obligations.ThetaRule : Prop :=
  encode .theta = 0x30000000#32 ∧ ReservedBitsRefused 0x30#8 0x00FFFFFF#32 ∧
  (∀ s : State, s.arch.phase ≠ .idle → RefusedWith .theta s .badPhase) ∧
  ∀ s : State, s.arch.phase = .idle →
    ∃ (t : State) (C : Fin 5 → Lane), exec .theta s = .next t ∧ Answered s t 0x00#8 ∧ ControlKept s t ∧
      (∀ x : Fin 5, C x = s.arch.lanes[x.val] ^^^ s.arch.lanes[x.val + 5] ^^^ s.arch.lanes[x.val + 10]
        ^^^ s.arch.lanes[x.val + 15] ^^^ s.arch.lanes[x.val + 20]) ∧
      ∀ x y : Fin 5, t.arch.lanes[laneIndex x y] =
        s.arch.lanes[laneIndex x y] ^^^ (C (x + 4) ^^^ (C (x + 1)).rotateLeft 1)

/-- R82, R87: RHOPI, in phase IDLE: the lanes become `rhopi` of them; MODE, PHASE and CURSOR unchanged; refused in the
other phases. What `rhopi` is, lane by lane, is the next statement. -/
def Obligations.RhopiRule : Prop :=
  encode .rhopi = 0x31000000#32 ∧ ReservedBitsRefused 0x31#8 0x00FFFFFF#32 ∧
  (∀ s : State, s.arch.phase ≠ .idle → RefusedWith .rhopi s .badPhase) ∧
  ∀ s : State, s.arch.phase = .idle →
    ∃ t, exec .rhopi s = .next t ∧ Answered s t 0x00#8 ∧ ControlKept s t ∧ t.arch.lanes = rhopi s.arch.lanes

/-- R73 (derived by the spec): the closed form of the walk. Lane 0 stays; the lane `PILN[i]` is the lane `PILN[i-1]` (lane 1
for `i = 0`) rotated left by `ROTC[i]`. -/
def Obligations.RhopiClosedForm : Prop :=
  ∀ S : Lanes, (rhopi S)[(0 : Fin 25)] = S[(0 : Fin 25)] ∧
    (rhopi S)[targetLanes[(0 : Fin 24)]] = S[(1 : Fin 25)].rotateLeft rotationAmounts[(0 : Fin 24)] ∧
    ∀ i : Fin 23, (rhopi S)[targetLanes[i.succ]] = S[targetLanes[i.castSucc]].rotateLeft rotationAmounts[i.succ]

/-- R75 (derived by the spec): the fused step is `pi` after `rho`. -/
def Obligations.RhopiIsPiAfterRho : Prop := ∀ S : Lanes, rhopi S = pi (rho S)

/-- R83, R76, R155: CHI, in phase IDLE: every lane is computed from the row as it was before the command. -/
def Obligations.ChiRule : Prop :=
  encode .chi = 0x32000000#32 ∧ ReservedBitsRefused 0x32#8 0x00FFFFFF#32 ∧
  (∀ s : State, s.arch.phase ≠ .idle → RefusedWith .chi s .badPhase) ∧
  ∀ s : State, s.arch.phase = .idle →
    ∃ t, exec .chi s = .next t ∧ Answered s t 0x00#8 ∧ ControlKept s t ∧
      ∀ x y : Fin 5, t.arch.lanes[laneIndex x y] = s.arch.lanes[laneIndex x y] ^^^
        (~~~s.arch.lanes[laneIndex (x + 1) y] &&& s.arch.lanes[laneIndex (x + 2) y])

/-- R84, R77: IOTA a, in phase IDLE: `A[0] <- A[0] ^ RC[a]`, the other lanes unchanged; refused for `a ≥ 24` and in the other
phases. -/
def Obligations.IotaRule : Prop :=
  (∀ a : Byte, encode (.iota a) = 0x33000000#32 ||| (a.setWidth 32 <<< 16)) ∧
  ReservedBitsRefused 0x33#8 0x0000FFFF#32 ∧
  (∀ (a : Byte) (s : State), s.arch.phase ≠ .idle → RefusedWith (.iota a) s .badPhase) ∧
  (∀ (a : Byte) (s : State), s.arch.phase = .idle → 24 ≤ a.toNat → RefusedWith (.iota a) s .badIndex) ∧
  ∀ (a : Byte) (s : State) (h : a.toNat < 24), s.arch.phase = .idle →
    ∃ t, exec (.iota a) s = .next t ∧ Answered s t 0x00#8 ∧ ControlKept s t ∧
      t.arch.lanes[0] = s.arch.lanes[0] ^^^ roundConstants[a.toNat] ∧
      ∀ i : Fin 25, i ≠ 0 → t.arch.lanes[i] = s.arch.lanes[i]

/-- R85, R78: ROUND a, in phase IDLE: theta, then rhopi, then chi, then iota with the constant `RC[a]`; refused for `a ≥ 24`
and in the other phases. -/
def Obligations.RoundRule : Prop :=
  (∀ a : Byte, encode (.round a) = 0x34000000#32 ||| (a.setWidth 32 <<< 16)) ∧
  ReservedBitsRefused 0x34#8 0x0000FFFF#32 ∧
  (∀ (a : Byte) (s : State), s.arch.phase ≠ .idle → RefusedWith (.round a) s .badPhase) ∧
  (∀ (a : Byte) (s : State), s.arch.phase = .idle → 24 ≤ a.toNat → RefusedWith (.round a) s .badIndex) ∧
  ∀ (a : Byte) (s : State) (h : a.toNat < 24), s.arch.phase = .idle →
    ∃ t, exec (.round a) s = .next t ∧ Answered s t 0x00#8 ∧ ControlKept s t ∧
      t.arch.lanes = iota (chi (rhopi (theta s.arch.lanes))) ⟨a.toNat, h⟩

/-- R86, R79: PERM, in phase IDLE: all 24 rounds in ascending order of the round index, as one step. -/
def Obligations.PermRule : Prop :=
  encode .perm = 0x35000000#32 ∧ ReservedBitsRefused 0x35#8 0x00FFFFFF#32 ∧
  (∀ s : State, s.arch.phase ≠ .idle → RefusedWith .perm s .badPhase) ∧
  ∀ s : State, s.arch.phase = .idle →
    ∃ (t : State) (T : Fin 25 → Lanes), exec .perm s = .next t ∧ Answered s t 0x00#8 ∧ ControlKept s t ∧
      T 0 = s.arch.lanes ∧ (∀ ir : Fin 24, T ir.succ = round (T ir.castSucc) ir) ∧ t.arch.lanes = T 24

/-- R85, R62 (ROUNDX; derived by the spec): in phase IDLE the four commands THETA, RHOPI, CHI, IOTA a leave the
architectural state that ROUND a leaves. -/
def Obligations.RoundIsItsFourCommands : Prop :=
  ∀ (s t : State) (a : Byte), s.arch.phase = .idle → a.toNat < 24 → exec (.round a) s = .next t →
    ∃ u, (s.withInputs (present (expand (.roundx a)))).run 4 = .next u ∧ u.arch = t.arch

/-- R85, R86, R62 (PERMX; derived by the spec): in phase IDLE the 24 commands ROUND 0 .. ROUND 23 leave the architectural
state that PERM leaves. -/
def Obligations.PermIsTwentyFourRounds : Prop :=
  ∀ s t : State, s.arch.phase = .idle → exec .perm s = .next t →
    ∃ u, (s.withInputs (present (expand .permx))).run 24 = .next u ∧ u.arch = t.arch

/-! ### The functions -/

/-- R70: `rotl64(v, n)` for `1 ≤ n ≤ 63` is `(v << n) | (v >> (64-n))`, and bit `i` of `v` becomes bit `(i + n) mod 64`. -/
def Obligations.RotationMovesBits : Prop :=
  ∀ (v : Lane) (n : Nat), 1 ≤ n → n ≤ 63 → rotl64 v n = (v <<< n) ||| (v >>> (64 - n)) ∧
    ∀ i : Nat, i < 64 → (rotl64 v n).getLsbD ((i + n) % 64) = v.getLsbD i

/-- R71, R72, R76: the all-zero and the all-ones states are fixed points of theta, rhopi and chi. -/
def Obligations.UniformStatesAreFixed : Prop :=
  ∀ v : Lane, v = 0#64 ∨ v = BitVec.allOnes 64 →
    theta (Vector.replicate 25 v) = Vector.replicate 25 v ∧ rhopi (Vector.replicate 25 v) = Vector.replicate 25 v ∧
    chi (Vector.replicate 25 v) = Vector.replicate 25 v

/-- R77: iota is its own inverse for a fixed round index. -/
def Obligations.IotaIsItsOwnInverse : Prop := ∀ (S : Lanes) (ir : Fin 24), iota (iota S ir) ir = S

/-- R30: the two views of the one storage. Every lane is the little-endian value of its eight bytes; every byte is the
eight bits of its lane; writing a byte changes those bits and no other bit of the state, and writing a lane changes its eight
bytes and no other byte. -/
def Obligations.ByteViewIsLaneView : Prop :=
  (∀ (S : Lanes) (i : Fin 25), (S[i]).toNat = memRead S (8 * i.val) 8 (by omega)) ∧
  (∀ (S : Lanes) (i : Fin 25) (k : Fin 8) (b : Nat), b < 8 →
    (byteAt S ⟨8 * i.val + k.val, by omega⟩).getLsbD b = (S[i]).getLsbD (8 * k.val + b)) ∧
  (∀ (S : Lanes) (i j : Fin 25) (k : Fin 8) (v : Byte) (b : Nat), b < 64 →
    ((setByte S ⟨8 * i.val + k.val, by omega⟩ v)[j]).getLsbD b =
      if j = i ∧ 8 * k.val ≤ b ∧ b ≤ 8 * k.val + 7 then v.getLsbD (b - 8 * k.val) else (S[j]).getLsbD b) ∧
  ∀ (S : Lanes) (i : Fin 25) (v : Lane) (k : Fin 200), byteAt (S.set i.val v i.isLt) k =
    if k.val / 8 = i.val then (v >>> (8 * (k.val % 8))).setWidth 8 else byteAt S k

/-- R17, R18, R19 (the spec's numbers and formulas are from general knowledge): the constant tables agree with the formulas the
spec gives for them. -/
def Obligations.TablesFollowTheirFormulas : Prop :=
  (∀ (ir : Fin 24) (j : Fin 7), (roundConstants[ir]).getLsbD (2 ^ j.val - 1) = rcBit (j.val + 7 * ir.val)) ∧
  (∀ (ir : Fin 24) (b : Fin 64), (roundConstants[ir]).getLsbD b.val = true → b.val ∈ [0, 1, 3, 7, 15, 31, 63]) ∧
  (∀ i : Fin 24, rotationAmounts[i] = ((i.val + 1) * (i.val + 2) / 2) % 64 ∧ 1 ≤ rotationAmounts[i] ∧ rotationAmounts[i] ≤ 62) ∧
  targetLanes[(0 : Fin 24)] = laneIndex 0 2 ∧ ∀ i : Fin 23, targetLanes[i.succ] =
    laneIndex (rowOf targetLanes[i.castSucc]) (2 * columnOf targetLanes[i.castSucc] + 3 * rowOf targetLanes[i.castSucc])

/-- R110, R111: the variant table, and the assertion the source asks for. -/
def Obligations.VariantTable : Prop :=
  (outLen 0#2 = 28 ∧ outLen 1#2 = 32 ∧ outLen 2#2 = 48 ∧ outLen 3#2 = 64) ∧
  (rate 0#2 = 144 ∧ rate 1#2 = 136 ∧ rate 2#2 = 104 ∧ rate 3#2 = 72) ∧
  ∀ m : BitVec 2, bits m = 8 * outLen m ∧ 1 ≤ outLen m ∧ outLen m ≤ rate m ∧ rate m ≤ 200 ∧ rate m % 8 = 0 ∧
    rate m + 2 * outLen m = 200

/-- R90, R93: the padding. Inside the block the two XORs land on the bytes `offset` and `rate - 1` (on the same byte when they
are equal) and no other byte changes; outside it there is no result. -/
def Obligations.PaddingTouchesTwoBytes : Prop :=
  (∀ (S : Lanes) (offset r : Nat) (b : Byte), offset < r → r ≤ 200 → ∃ T, pad S offset b r = some T ∧
    ∀ k : Fin 200, byteAt T k = byteAt S k ^^^ (if k.val = offset then b else 0x00#8)
      ^^^ (if k.val = r - 1 then 0x80#8 else 0x00#8)) ∧
  ∀ (S : Lanes) (offset r : Nat) (b : Byte), r ≤ offset ∨ 200 < r → pad S offset b r = none

/-- R92 (derived by the spec), R90: for every rate from 1 to 200 the absorb of `n` bytes has a result and its offset is
`n mod rate`; for any other rate it has none. -/
def Obligations.AbsorbOffset : Prop :=
  (∀ (S : Lanes) (M : List Byte) (r : Nat), 1 ≤ r → r ≤ 200 → ∃ T, absorb S M r = some (T, M.length % r)) ∧
  ∀ (S : Lanes) (M : List Byte) (r : Nat), r = 0 ∨ 200 < r → absorb S M r = none

/-- R94, R90: the squeeze pads, permutes exactly once and copies the first `outLen` bytes; outside R90's range it has
no result. -/
def Obligations.SqueezeContract : Prop :=
  (∀ (S : Lanes) (n r offset : Nat) (b : Byte), 1 ≤ n → n ≤ r → r ≤ 200 → offset < r →
    ∃ (T : Lanes) (D : List Byte), pad S offset b r = some T ∧ squeeze S n b r offset = some (keccakF T, D) ∧ D.length = n ∧
      ∀ (k : Nat) (h : k < 200), k < n → D[k]? = some (byteAt (keccakF T) ⟨k, h⟩)) ∧
  ∀ (S : Lanes) (n r offset : Nat) (b : Byte), n = 0 ∨ r < n ∨ 200 < r ∨ r ≤ offset → squeeze S n b r offset = none

/-! ### Whole-machine rules -/

/-- R12: MODE is written by INIT only; every other command leaves it unchanged, executed or refused. -/
def Obligations.ModeIsWrittenByInitOnly : Prop :=
  ∀ (i : Instr) (s t : State), (∀ m, i ≠ .init m) → exec i s = .next t → t.arch.mode = s.arch.mode

/-- R14: CURSOR is written by INIT and CLR (to 0) and by ABSB only; FINAL reads it and does not write it. -/
def Obligations.CursorIsWrittenByThreeCommands : Prop :=
  ∀ (i : Instr) (s t : State), exec i s = .next t →
    (i = .clr ∨ (∃ m, i = .init m) → t.arch.cursor = 0#8) ∧
    (i ≠ .clr → (∀ m, i ≠ .init m) → (∀ d, i ≠ .absb d) → t.arch.cursor = s.arch.cursor)

/-- R119: the phase moves only as the table says; a refused command never moves it. -/
def Obligations.PhaseTransitions : Prop :=
  ∀ (i : Instr) (s t : State), exec i s = .next t →
    (i = .clr → t.arch.phase = .idle) ∧ ((∃ m, i = .init m) → t.arch.phase = .absorb) ∧
    (i = .final → s.arch.phase = .absorb → t.arch.phase = .done) ∧
    (i = .final → s.arch.phase ≠ .absorb → t.arch.phase = s.arch.phase) ∧
    (i ≠ .clr → (∀ m, i ≠ .init m) → i ≠ .final → t.arch.phase = s.arch.phase)

/-- R36 (derived by the spec): the reading commands change no state, and INIT, CLR, NOP, STB, LDB, RDD and RDSR done twice
leave the architectural state that doing them once leaves. -/
def Obligations.ReadsAndIdempotence : Prop :=
  (∀ (i : Instr) (s t : State), i = .nop ∨ (∃ a, i = .ldb a) ∨ (∃ a, i = .rdd a) ∨ (∃ a, i = .rdsr a) →
    exec i s = .next t → t.arch = s.arch) ∧
  ∀ (i : Instr) (s t u : State),
    (∃ m, i = .init m) ∨ i = .clr ∨ i = .nop ∨ (∃ a d, i = .stb a d) ∨ (∃ a, i = .ldb a) ∨ (∃ a, i = .rdd a) ∨
      (∃ a, i = .rdsr a) →
    exec i s = .next t → exec i t = .next u → u.arch = t.arch

/-- R100 (derived by the spec): from phase DONE, as long as the host sends no INIT, no CLR and no reset, no run of any length
changes the architectural state, so every RDD with the same index answers the same byte. -/
def Obligations.DigestIsImmutable : Prop :=
  ∀ (s t : State) (n : Nat), s.arch.phase = .done → s.inputs.all (fun e => !endsDigest e) = true →
    s.run n = .next t → t.arch = s.arch

/-- R121, R24 (derived by the spec): INIT forgets the past. Two states, whatever they held, into which the host sends the same
INIT and the same events after it, run alike: the same architectural state, the same new responses, after any number of steps. -/
def Obligations.InitForgetsThePast : Prop :=
  ∀ (m : BitVec 2) (es : List HostEvent) (s u t : State) (n : Nat), s.inputs = .word (encode (.init m)) :: es →
    u.inputs = s.inputs → s.run (n + 1) = .next t →
    ∃ (v : State) (rs : List Response), u.run (n + 1) = .next v ∧ v.arch = t.arch ∧ v.inputs = t.inputs ∧
      t.responses = s.responses ++ rs ∧ v.responses = u.responses ++ rs

/-- R118 (derived by the spec), R92, R94, R62: from any state of the block the command sequence of the one-shot function of the
variant `m` on the message `M` is accepted command by command, and the digest bytes it reads are
`squeeze(absorb(0, M))` of that variant, `outLen(m)` of them. -/
def Obligations.OneShotHash : Prop :=
  ∀ (m : BitVec 2) (M : List Byte) (s : State), s.inputs = present (hashScript m M) →
    ∃ (t : State) (D : List Byte), sha3 m M = some D ∧ D.length = outLen m ∧
      s.run (M.length + 2 + outLen m) = .next t ∧ t.inputs = [] ∧ t.arch.phase = .done ∧
      t.responses = s.responses ++ List.replicate (M.length + 2) ⟨.ok, 0x00#8⟩ ++ D.map fun b => ⟨.ok, b⟩

/-- R62 (LOAD, DUMP), R116, R117: in phase IDLE, loading any 200 bytes and reading all bytes back answers those bytes in
order, and leaves the control registers alone. -/
def Obligations.LoadThenDump : Prop :=
  ∀ (s : State) (b : Vector Byte 200), s.arch.phase = .idle → s.inputs = present (expand (.load b) ++ expand .dump) →
    ∃ t, s.run 400 = .next t ∧ t.inputs = [] ∧ t.arch.mode = s.arch.mode ∧ t.arch.phase = .idle ∧
      t.arch.cursor = s.arch.cursor ∧
      t.responses = s.responses ++ List.replicate 200 ⟨.ok, 0x00#8⟩ ++ b.toList.map fun v => ⟨.ok, v⟩
end

