-- ==== Sys2Proof/Laws/Bytes.lean ====
section
/-! SUPPORT. The byte view of the lanes: read after write, and extensionality by bytes (spec/20_memory.md R30). -/

namespace Sys2Proof.Machine

/-- A bit of a byte of a lane is the lane's bit at the byte's place. -/
theorem laneByte_getLsbD (v : Lane) (j i : Nat) : (laneByte v j).getLsbD i = (decide (i < 8) && v.getLsbD (8 * j + i)) := by
  simp [laneByte, BitVec.getLsbD_extractLsb']

/-- Replacing byte `j` of a lane replaces its bits `8j .. 8j+7` and keeps the others. -/
theorem replaceLaneByte_getLsbD (v : Lane) (j : Nat) (b : Byte) (i : Nat) (hi : i < 64) :
    (replaceLaneByte v j b).getLsbD i = if 8 * j ≤ i ∧ i < 8 * j + 8 then b.getLsbD (i - 8 * j) else v.getLsbD i := by
  have hff : ∀ n : Nat, (0xFF#64).getLsbD n = decide (n < 8) := by
    intro n
    by_cases hn : n < 64
    · have : ∀ m : Fin 64, (0xFF#64).getLsbD m.val = decide (m.val < 8) := by decide
      exact this ⟨n, hn⟩
    · rw [BitVec.getLsbD_of_ge _ _ (by omega)]; simp; omega
  simp only [replaceLaneByte, BitVec.getLsbD_or, BitVec.getLsbD_and, BitVec.getLsbD_not, BitVec.getLsbD_shiftLeft,
    BitVec.getLsbD_setWidth, hff]
  by_cases h1 : 8 * j ≤ i
  · by_cases h2 : i < 8 * j + 8
    · have : i - 8 * j < 8 := by omega
      have h64 : i - 8 * j < 64 := by omega
      simp [hi, h1, h2, this, h64, Nat.not_lt.mpr h1]
    · have h3 : ¬ i - 8 * j < 8 := by omega
      have : b.getLsbD (i - 8 * j) = false := BitVec.getLsbD_of_ge _ _ (by omega)
      simp [hi, h2, h3, this]
  · have h2 : i < 8 * j := by omega
    simp [hi, h1, h2]

/-- Read after write of the same byte of a lane. -/
theorem laneByte_replace_self (v : Lane) (j : Nat) (hj : j < 8) (b : Byte) : laneByte (replaceLaneByte v j b) j = b := by
  apply BitVec.eq_of_getLsbD_eq
  intro i hi
  rw [laneByte_getLsbD, replaceLaneByte_getLsbD _ _ _ _ (by omega)]
  have h : 8 * j ≤ 8 * j + i ∧ 8 * j + i < 8 * j + 8 := by omega
  rw [if_pos h, Nat.add_sub_cancel_left]
  simp [hi]

/-- Read of another byte of a lane. -/
theorem laneByte_replace_ne (v : Lane) (j l : Nat) (hl : l < 8) (h : l ≠ j) (b : Byte) :
    laneByte (replaceLaneByte v j b) l = laneByte v l := by
  apply BitVec.eq_of_getLsbD_eq
  intro i hi
  rw [laneByte_getLsbD, laneByte_getLsbD, replaceLaneByte_getLsbD _ _ _ _ (by omega), if_neg (by omega)]

/-- Read after write of the same byte. -/
@[simp] theorem byteAt_setByte_self (S : Lanes) (k : Fin 200) (v : Byte) : byteAt (setByte S k v) k = v := by
  simp [byteAt, setByte, laneByte_replace_self _ _ (Nat.mod_lt _ (by decide : 0 < 8))]

/-- A write leaves every other byte alone. -/
theorem byteAt_setByte_ne (S : Lanes) (k l : Fin 200) (h : l ≠ k) (v : Byte) : byteAt (setByte S k v) l = byteAt S l := by
  have hne : l.val ≠ k.val := fun e => h (Fin.ext e)
  simp only [byteAt, setByte, Fin.getElem_fin, Vector.getElem_set]
  by_cases hl : (laneOfByte k).val = (laneOfByte l).val
  · rw [if_pos hl]
    have hm : l.val % 8 ≠ k.val % 8 := by
      simp only [laneOfByte] at hl
      omega
    rw [laneByte_replace_ne _ _ _ (Nat.mod_lt _ (by decide)) hm]
    simp only [hl]
  · rw [if_neg hl]

/-- Every byte after a write. -/
theorem byteAt_setByte (S : Lanes) (k l : Fin 200) (v : Byte) :
    byteAt (setByte S k v) l = if l = k then v else byteAt S l := by
  by_cases h : l = k
  · subst h; simp
  · rw [if_neg h, byteAt_setByte_ne _ _ _ h]

/-- Every byte after an XOR into one byte. -/
theorem byteAt_xorByte (S : Lanes) (k l : Fin 200) (v : Byte) :
    byteAt (xorByte S k v) l = if l = k then byteAt S k ^^^ v else byteAt S l :=
  byteAt_setByte S k l _

/-- Lanes with the same bytes are the same: the byte view is the whole storage. -/
theorem lanes_ext_bytes {S T : Lanes} (h : ∀ k, byteAt S k = byteAt T k) : S = T := by
  apply Vector.ext
  intro i hi
  apply BitVec.eq_of_getLsbD_eq
  intro b hb
  have hk := h ⟨8 * i + b / 8, by omega⟩
  have h1 : (8 * i + b / 8) / 8 = i := by omega
  have h2 : (8 * i + b / 8) % 8 = b / 8 := by omega
  have h3 := congrArg (fun v => v.getLsbD (b % 8)) hk
  simp only [byteAt, laneOfByte, laneByte_getLsbD, h1, h2, Fin.getElem_fin] at h3
  have h4 : 8 * (b / 8) + b % 8 = b := by omega
  have h5 : b % 8 < 8 := by omega
  simpa [h4, h5] using h3

end Sys2Proof.Machine
end

