-- ==== Sys2Proof/Laws/Decode.lean ====
section
/-! SUPPORT. The fields of a word laid out from its four bytes, and its must-be-zero bits (spec/30_encoding.md R53, R54). -/

namespace Sys2Proof

variable (op a z d : Byte)

/-- The opcode field of a word laid out from four bytes. -/
theorem opField_append : opField (op ++ a ++ z ++ d : BitVec 32) = op := by
  apply BitVec.eq_of_getLsbD_eq
  intro i hi
  have h1 : ¬ 24 + i < 8 := by omega
  have h2 : ¬ 24 + i - 8 < 8 := by omega
  have h3 : ¬ 24 + i - 8 - 8 < 8 := by omega
  have h4 : 24 + i - 8 - 8 - 8 = i := by omega
  simp only [opField, BitVec.getLsbD_extractLsb', BitVec.getLsbD_append, h1, h2, h3, h4, hi]
  simp

/-- The index field of a word laid out from four bytes. -/
theorem aField_append : aField (op ++ a ++ z ++ d : BitVec 32) = a := by
  apply BitVec.eq_of_getLsbD_eq
  intro i hi
  have h1 : ¬ 16 + i < 8 := by omega
  have h2 : ¬ 16 + i - 8 < 8 := by omega
  have h4 : 16 + i - 8 - 8 = i := by omega
  simp only [aField, BitVec.getLsbD_extractLsb', BitVec.getLsbD_append, h1, h2, h4, hi]
  simp

/-- The reserved field of a word laid out from four bytes. -/
theorem zField_append : zField (op ++ a ++ z ++ d : BitVec 32) = z := by
  apply BitVec.eq_of_getLsbD_eq
  intro i hi
  have h1 : ¬ 8 + i < 8 := by omega
  have h2 : 8 + i - 8 = i := by omega
  simp only [zField, BitVec.getLsbD_extractLsb', BitVec.getLsbD_append, h1, h2, hi]
  simp

/-- The data field of a word laid out from four bytes. -/
theorem dField_append : dField (op ++ a ++ z ++ d : BitVec 32) = d := by
  apply BitVec.eq_of_getLsbD_eq
  intro i hi
  have h1 : 0 + i = i := by omega
  simp only [dField, BitVec.getLsbD_extractLsb', BitVec.getLsbD_append, h1, hi]
  simp

/-- The fields of an assembled word. -/
@[simp] theorem opField_assembleWord : opField (assembleWord op a d) = op := opField_append op a 0#8 d

@[simp] theorem aField_assembleWord : aField (assembleWord op a d) = a := aField_append op a 0#8 d

@[simp] theorem zField_assembleWord : zField (assembleWord op a d) = 0#8 := zField_append op a 0#8 d

@[simp] theorem dField_assembleWord : dField (assembleWord op a d) = d := dField_append op a 0#8 d

/-- Every word is its four fields. -/
theorem word_eq_fields (w : Word) : w = (opField w ++ aField w ++ zField w ++ dField w : BitVec 32) := by
  apply BitVec.eq_of_getLsbD_eq
  intro i hi
  simp only [opField, aField, zField, dField, BitVec.getLsbD_append, BitVec.getLsbD_extractLsb']
  by_cases h1 : i < 8
  · simp [h1]
  by_cases h2 : i - 8 < 8
  · have : 8 + (i - 8) = i := by omega
    simp [h1, h2, this]
  by_cases h3 : i - 8 - 8 < 8
  · have : 16 + (i - 8 - 8) = i := by omega
    simp [h1, h2, h3, this]
  · have h4 : i - 8 - 8 - 8 < 8 := by omega
    have : 24 + (i - 8 - 8 - 8) = i := by omega
    simp [h1, h2, h3, h4, this]

/-- Masking a word laid out from four bytes masks byte by byte. -/
theorem append_and (a b c d a' b' c' d' : Byte) :
    ((a ++ b ++ c ++ d : BitVec 32) &&& (a' ++ b' ++ c' ++ d' : BitVec 32)) =
      ((a &&& a') ++ (b &&& b') ++ (c &&& c') ++ (d &&& d') : BitVec 32) := by
  simp only [BitVec.and_append]

/-- Two words laid out from four bytes are equal exactly when their bytes are. -/
theorem append_eq_iff (a b c d a' b' c' d' : Byte) :
    (a ++ b ++ c ++ d : BitVec 32) = (a' ++ b' ++ c' ++ d' : BitVec 32) ↔ a = a' ∧ b = b' ∧ c = c' ∧ d = d' := by
  constructor
  · intro h
    refine ⟨?_, ?_, ?_, ?_⟩
    · simpa only [opField_append] using congrArg opField h
    · simpa only [aField_append] using congrArg aField h
    · simpa only [zField_append] using congrArg zField h
    · simpa only [dField_append] using congrArg dField h
  · rintro ⟨rfl, rfl, rfl, rfl⟩; rfl

/-- The must-be-zero bits of a word laid out from four bytes, format by format (R54). -/
theorem append_and_mbz (f : Format) :
    (op ++ a ++ z ++ d : BitVec 32) &&& mbz f = 0#32 ↔
      match f with
      | .z => a = 0#8 ∧ z = 0#8 ∧ d = 0#8
      | .a => z = 0#8 ∧ d = 0#8
      | .m => a &&& 0xFC#8 = 0#8 ∧ z = 0#8 ∧ d = 0#8
      | .d => a = 0#8 ∧ z = 0#8
      | .ad => z = 0#8 := by
  have hff : ∀ x : Byte, x &&& 0xFF#8 = x := fun x => BitVec.and_allOnes
  have h00 : ∀ x : Byte, x &&& 0x00#8 = 0#8 := fun x => BitVec.and_zero
  have hz : (0#32 : Word) = (0#8 ++ 0#8 ++ 0#8 ++ 0#8 : BitVec 32) := rfl
  cases f
  · have hm : mbz .z = (0x00#8 ++ 0xFF#8 ++ 0xFF#8 ++ 0xFF#8 : BitVec 32) := rfl
    rw [hm, hz, append_and, append_eq_iff, hff, hff, hff, h00]; simp
  · have hm : mbz .a = (0x00#8 ++ 0x00#8 ++ 0xFF#8 ++ 0xFF#8 : BitVec 32) := rfl
    rw [hm, hz, append_and, append_eq_iff, hff, hff, h00, h00]; simp
  · have hm : mbz .m = (0x00#8 ++ 0xFC#8 ++ 0xFF#8 ++ 0xFF#8 : BitVec 32) := rfl
    rw [hm, hz, append_and, append_eq_iff, hff, hff, h00]; simp
  · have hm : mbz .d = (0x00#8 ++ 0xFF#8 ++ 0xFF#8 ++ 0x00#8 : BitVec 32) := rfl
    rw [hm, hz, append_and, append_eq_iff, hff, hff, h00, h00]; simp
  · have hm : mbz .ad = (0x00#8 ++ 0x00#8 ++ 0xFF#8 ++ 0x00#8 : BitVec 32) := rfl
    rw [hm, hz, append_and, append_eq_iff, hff, h00, h00, h00]; simp

/-- The bytes of a format's must-be-zero mask: none in the opcode. -/
theorem mbz_bytes (f : Format) : ∃ m₁ m₂ m₃ : Byte, mbz f = (0x00#8 ++ m₁ ++ m₂ ++ m₃ : BitVec 32) ∧
    0xFF000000#32 ||| mbz f = (0xFF#8 ++ m₁ ++ m₂ ++ m₃ : BitVec 32) := by
  cases f
  · exact ⟨0xFF#8, 0xFF#8, 0xFF#8, rfl, rfl⟩
  · exact ⟨0x00#8, 0xFF#8, 0xFF#8, rfl, rfl⟩
  · exact ⟨0xFC#8, 0xFF#8, 0xFF#8, rfl, rfl⟩
  · exact ⟨0xFF#8, 0xFF#8, 0x00#8, rfl, rfl⟩
  · exact ⟨0x00#8, 0xFF#8, 0x00#8, rfl, rfl⟩

/-- A word agrees with `match` under `mask` exactly when it has the opcode and its must-be-zero bits are zero (R54). -/
theorem and_mask_eq_match (w : Word) (op : Byte) (f : Format) :
    w &&& (0xFF000000#32 ||| mbz f) = assembleWord op 0#8 0#8 ↔ opField w = op ∧ w &&& mbz f = 0#32 := by
  obtain ⟨m₁, m₂, m₃, h, hf⟩ := mbz_bytes f
  have hz : (0#32 : Word) = (0#8 ++ 0#8 ++ 0#8 ++ 0#8 : BitVec 32) := rfl
  have hff : ∀ x : Byte, x &&& 0xFF#8 = x := fun x => BitVec.and_allOnes
  rw [hf, h, hz, word_eq_fields w, opField_append, append_and, append_and, assembleWord, append_eq_iff, append_eq_iff, hff]
  simp

end Sys2Proof
end

