-- ==== Sys2Proof/Laws/State.lean ====
section
/-! SUPPORT. One lemma for each field of State under each update, so that no proof unfolds a record update. -/

namespace Sys2Proof.Machine

variable (s : State) (σ : Arch) (S : Lanes) (es : List HostEvent) (c : Code) (d : Byte)

@[simp] theorem State.withArch_arch : (s.withArch σ).arch = σ := rfl
@[simp] theorem State.withArch_inputs : (s.withArch σ).inputs = s.inputs := rfl
@[simp] theorem State.withArch_responses : (s.withArch σ).responses = s.responses := rfl

@[simp] theorem State.withLanes_lanes : (s.withLanes S).arch.lanes = S := rfl
@[simp] theorem State.withLanes_mode : (s.withLanes S).arch.mode = s.arch.mode := rfl
@[simp] theorem State.withLanes_phase : (s.withLanes S).arch.phase = s.arch.phase := rfl
@[simp] theorem State.withLanes_cursor : (s.withLanes S).arch.cursor = s.arch.cursor := rfl
@[simp] theorem State.withLanes_inputs : (s.withLanes S).inputs = s.inputs := rfl
@[simp] theorem State.withLanes_responses : (s.withLanes S).responses = s.responses := rfl

@[simp] theorem State.withInputs_arch : (s.withInputs es).arch = s.arch := rfl
@[simp] theorem State.withInputs_inputs : (s.withInputs es).inputs = es := rfl
@[simp] theorem State.withInputs_responses : (s.withInputs es).responses = s.responses := rfl

@[simp] theorem State.respond_arch : (s.respond c d).arch = s.arch := rfl
@[simp] theorem State.respond_inputs : (s.respond c d).inputs = s.inputs := rfl
@[simp] theorem State.respond_responses : (s.respond c d).responses = s.responses ++ [⟨c, d⟩] := rfl

@[simp] theorem State.answer_arch : (s.answer d).arch = s.arch := rfl
@[simp] theorem State.answer_inputs : (s.answer d).inputs = s.inputs := rfl
@[simp] theorem State.answer_responses : (s.answer d).responses = s.responses ++ [⟨.ok, d⟩] := rfl

@[simp] theorem State.acknowledge_arch : s.acknowledge.arch = s.arch := rfl
@[simp] theorem State.acknowledge_inputs : s.acknowledge.inputs = s.inputs := rfl
@[simp] theorem State.acknowledge_responses : s.acknowledge.responses = s.responses ++ [⟨.ok, 0x00#8⟩] := rfl

@[simp] theorem State.refuse_arch : (s.refuse c).arch = s.arch := rfl
@[simp] theorem State.refuse_inputs : (s.refuse c).inputs = s.inputs := rfl
@[simp] theorem State.refuse_responses : (s.refuse c).responses = s.responses ++ [⟨c, 0x00#8⟩] := rfl

@[simp] theorem State.resetBlock_arch : s.resetBlock.arch = Arch.reset := rfl
@[simp] theorem State.resetBlock_inputs : s.resetBlock.inputs = s.inputs := rfl
@[simp] theorem State.resetBlock_responses : s.resetBlock.responses = s.responses := rfl

end Sys2Proof.Machine
end

