-- ==== Sys2Proof/Laws/Ops.lean ====
section
/-! SUPPORT. What the shared check of a command can answer (spec/30_encoding.md R52 stages 3 to 5). -/

namespace Sys2Proof.Machine

variable {i : Instr} {s t : State} {body : inRange i s.arch.mode = true → Host.Outcome State Fault Refusal}

/-- A command the phase does not allow is refused with BAD_PHASE. -/
theorem checked_badPhase (h : legal i s.arch.phase = false) : checked i s body = .next (s.refuse .badPhase) := by
  simp [checked, h]

/-- A command the phase allows whose index is out of range is refused with BAD_INDEX. -/
theorem checked_badIndex (h : legal i s.arch.phase = true) (hr : inRange i s.arch.mode = false) :
    checked i s body = .next (s.refuse .badIndex) := by
  simp [checked, h, hr]

/-- A command that passes both checks has its effect. -/
theorem checked_passed (h : legal i s.arch.phase = true) (hr : inRange i s.arch.mode = true) :
    checked i s body = body hr := by
  simp [checked, h, hr]

/-- Everything the shared check can answer with a next state. -/
theorem checked_next_cases (h : checked i s body = .next t) :
    (legal i s.arch.phase = false ∧ t = s.refuse .badPhase) ∨
    (legal i s.arch.phase = true ∧ inRange i s.arch.mode = false ∧ t = s.refuse .badIndex) ∨
    (legal i s.arch.phase = true ∧ ∃ hr : inRange i s.arch.mode = true, body hr = .next t) := by
  by_cases hl : legal i s.arch.phase = true
  · by_cases hr : inRange i s.arch.mode = true
    · rw [checked_passed hl hr] at h; exact .inr (.inr ⟨hl, hr, h⟩)
    · rw [checked_badIndex hl (by simpa using hr)] at h; cases h; exact .inr (.inl ⟨hl, by simpa using hr, rfl⟩)
  · rw [checked_badPhase (by simpa using hl)] at h; cases h; exact .inl ⟨by simpa using hl, rfl⟩

end Sys2Proof.Machine
end

