-- ==== Sys2Proof/Laws/Permutation.lean ====
section
/-! SUPPORT. The lanes of a tabulated state, and extensionality by columns and rows (spec/10_state.md R11). -/

namespace Sys2Proof.Machine

/-- Every lane index is the index of its column and row. -/
theorem laneIndex_column_row (i : Fin 25) : laneIndex (columnOf i) (rowOf i) = i := by
  revert i; decide

/-- The lane `(x, y)` of a tabulated state. -/
@[simp] theorem laneAt_tabulateLanes (f : Fin 5 → Fin 5 → Lane) (x y : Fin 5) : laneAt (tabulateLanes f) x y = f x y := by
  fin_cases x <;> fin_cases y <;> rfl

/-- The value of a tabulated function of the column. -/
@[simp] theorem tabulateColumns_getElem (f : Fin 5 → Lane) (x : Fin 5) : (tabulateColumns f)[x.val] = f x := by
  fin_cases x <;> rfl

/-- States with the same lane in every column and row are the same. -/
theorem lanes_ext_laneAt {S T : Lanes} (h : ∀ x y, laneAt S x y = laneAt T x y) : S = T := by
  apply Vector.ext
  intro i hi
  have := h (columnOf ⟨i, hi⟩) (rowOf ⟨i, hi⟩)
  simpa [laneAt, laneIndex_column_row] using this

/-- The lanes of theta. -/
theorem laneAt_theta (S : Lanes) (x y : Fin 5) :
    laneAt (theta S) x y =
      laneAt S x y ^^^ ((columnParities S)[x + 4] ^^^ rotl64 (columnParities S)[x + 1] 1) := by
  simp [theta, thetaMix]

/-- The lanes of chi. -/
theorem laneAt_chi (S : Lanes) (x y : Fin 5) :
    laneAt (chi S) x y = laneAt S x y ^^^ (~~~(laneAt S (x + 1) y) &&& laneAt S (x + 2) y) := by
  simp [chi]

/-- The lanes of iota. -/
theorem getElem_iota (S : Lanes) (ir : Fin 24) (i : Fin 25) :
    (iota S ir)[i] = if i = 0 then S[i] ^^^ roundConstants[ir] else S[i] := by
  have hl : laneAt S 0 0 = S[0] := rfl
  by_cases h : i = 0
  · subst h; simp [iota, hl]
  · have : ¬ 0 = i.val := fun e => h (Fin.ext e.symm)
    simp [iota, h, this]

/-- The lane `j` after the walk over the steps `is`, in terms of the lanes `T` before it: the value carried into the step whose
target is `j`, rotated, or the lane as it was. -/
def walkedLane (T : Lanes) (j : Fin 25) : List (Fin 24) → Lane → Lane
  | [], _ => T[j]
  | i :: is, t => if j = targetLanes[i] then rotl64 t rotationAmounts[i] else walkedLane T j is T[targetLanes[i]]

/-- The walked lane reads only the lanes at the targets of the steps, and lane `j` where no step has target `j`. -/
theorem walkedLane_congr (T U : Lanes) (j : Fin 25) (is : List (Fin 24)) (t : Lane)
    (hj : j ∉ is.map (targetLanes[·]) → T[j] = U[j])
    (h : ∀ i ∈ is, T[targetLanes[i]] = U[targetLanes[i]]) : walkedLane T j is t = walkedLane U j is t := by
  induction is generalizing t with
  | nil => exact hj (by simp)
  | cons i is ih =>
    simp only [walkedLane]
    split
    · rfl
    · next hne =>
      rw [h i (by simp)]
      exact ih _ (fun hn => hj (by rw [List.map_cons, List.mem_cons, not_or]; exact ⟨hne, hn⟩)) (fun k hk => h k (by simp [hk]))

/-- A lane that is no target of the steps is kept. -/
theorem walkedLane_of_not_target (T : Lanes) (t : Lane) {j : Fin 25} {is : List (Fin 24)}
    (h : j ∉ is.map (targetLanes[·])) : walkedLane T j is t = T[j] := by
  induction is generalizing t with
  | nil => rfl
  | cons i is ih =>
    rw [List.map_cons, List.mem_cons, not_or] at h
    rw [walkedLane, if_neg h.1, ih _ h.2]

/-- Every lane after a walk over steps with different targets. -/
theorem walk_getElem (is : List (Fin 24)) (hn : (is.map (targetLanes[·])).Nodup) (T : Lanes) (t : Lane) (j : Fin 25) :
    (is.foldl (fun w i => walkStep w.1 w.2 i) (T, t)).1[j] = walkedLane T j is t := by
  induction is generalizing T t with
  | nil => rfl
  | cons i is ih =>
    rw [List.map_cons, List.nodup_cons] at hn
    rw [List.foldl_cons, ih hn.2, walkedLane]
    simp only [walkStep]
    have hset : ∀ k : Fin 25, k ≠ targetLanes[i] →
        (T.set targetLanes[i].val (rotl64 t rotationAmounts[i]) targetLanes[i].isLt)[k] = T[k] := fun k hk => by
      rw [Fin.getElem_fin, Vector.getElem_set_ne _ _ (fun e => hk (Fin.ext e.symm))]; rfl
    by_cases h : j = targetLanes[i]
    · rw [if_pos h]
      subst h
      rw [walkedLane_of_not_target _ _ hn.1]
      simp
    · rw [if_neg h]
      exact walkedLane_congr _ _ _ _ _ (fun _ => hset j h)
        (fun k hk => hset _ (fun e => hn.1 (by rw [← e]; exact List.mem_map_of_mem hk)))

/-- The lanes of rhopi: for a numeral `j` the right-hand side computes to one rotated lane of `S`. -/
theorem rhopi_getElem (S : Lanes) (j : Fin 25) : (rhopi S)[j] = walkedLane S j (List.finRange 24) S[(1 : Fin 25)] :=
  walk_getElem _ (by decide) _ _ _

end Sys2Proof.Machine
end

