-- ==== Sys2Proof/Laws/Sponge.lean ====
section
/-! SUPPORT. What the sponge functions answer (spec/41_sponge.md R90 to R93). -/

namespace Sys2Proof.Machine

/-- Inside the block `absorb_byte` has a result, and it is this one. -/
theorem absorbByte_eq {S : Lanes} {c rate : Nat} {b : Byte} (h : c < rate ∧ rate ≤ 200) :
    absorbByte S c b rate =
      if c + 1 = rate then some (keccakF (xorByte S ⟨c, by omega⟩ b), 0)
      else some (xorByte S ⟨c, by omega⟩ b, c + 1) := by
  simp [absorbByte, h]

/-- `absorb_byte` has a result only inside the block, and the new cursor is below the rate. -/
theorem absorbByte_some {S T : Lanes} {c c' rate : Nat} {b : Byte} (h : absorbByte S c b rate = some (T, c')) :
    c < rate ∧ rate ≤ 200 ∧ c' < rate := by
  by_cases hr : c < rate ∧ rate ≤ 200
  · rw [absorbByte_eq hr] at h
    split at h <;> simp at h <;> omega
  · simp [absorbByte, hr] at h

/-- Inside the block `pad` has a result, and it is this one. -/
theorem pad_eq {S : Lanes} {o rate : Nat} {b : Byte} (h : o < rate ∧ rate ≤ 200) :
    pad S o b rate =
      some (xorByte (xorByte S ⟨o, by omega⟩ b) ⟨rate - 1, by omega⟩ Config.finalPadByte) := by
  simp [pad, h]

/-- `pad` has a result only inside the block. -/
theorem pad_some {S T : Lanes} {o rate : Nat} {b : Byte} (h : pad S o b rate = some T) : o < rate ∧ rate ≤ 200 := by
  by_cases hr : o < rate ∧ rate ≤ 200
  · exact hr
  · simp [pad, hr] at h

/-- The rate of every variant is a block inside the state (R111). -/
theorem rate_bounds (m : BitVec 2) : 72 ≤ rate m ∧ rate m ≤ 144 := by
  revert m; decide

end Sys2Proof.Machine
end

