-- ==== Sys2Proof/Laws/Exec.lean ====
section
/-! SUPPORT. What a command can do: said once, for provers to cite instead of unfolding the meanings. -/

namespace Sys2Proof.Machine

/-- What an executed command does to the architectural state, coarsely: which parts of it may change and how the sponge
commands compute them. -/
def ArchEffect (i : Instr) (σ τ : Arch) : Prop :=
  match i with
  | .nop => τ = σ
  | .clr => τ = { σ with lanes := zeroLanes, cursor := 0#8, phase := .idle }
  | .init m => τ = { lanes := zeroLanes, mode := m, phase := .absorb, cursor := 0#8 }
  | .rdsr _ => τ = σ
  | .absb d => ∃ S c, absorbByte σ.lanes σ.cursor.toNat d (rate σ.mode) = some (S, c) ∧
      τ = { σ with lanes := S, cursor := BitVec.ofNat 8 c }
  | .final => ∃ S, pad σ.lanes σ.cursor.toNat Config.domainByte (rate σ.mode) = some S ∧
      τ = { σ with lanes := keccakF S, phase := .done }
  | .rdd _ => τ = σ
  | .ldb _ => τ = σ
  | .stb a d => ∃ h : a.toNat < 200, τ = { σ with lanes := setByte σ.lanes ⟨a.toNat, h⟩ d }
  | .theta => τ = { σ with lanes := theta σ.lanes }
  | .rhopi => τ = { σ with lanes := rhopi σ.lanes }
  | .chi => τ = { σ with lanes := chi σ.lanes }
  | .iota a => ∃ h : a.toNat < 24, τ = { σ with lanes := iota σ.lanes ⟨a.toNat, h⟩ }
  | .round a => ∃ h : a.toNat < 24, τ = { σ with lanes := round σ.lanes ⟨a.toNat, h⟩ }
  | .perm => τ = { σ with lanes := keccakF σ.lanes }

/-! Each command as the shared check around its own effect. -/

theorem exec_nop (s : State) : exec .nop s = checked .nop s fun _ => .next s.acknowledge := by
  simp only [exec, execNop]

theorem exec_clr (s : State) : exec .clr s = checked .clr s fun _ =>
    .next (s.withArch { s.arch with lanes := zeroLanes, cursor := 0#8, phase := .idle }).acknowledge := by
  simp only [exec, execClr]

theorem exec_init (m : BitVec 2) (s : State) : exec (.init m) s = checked (.init m) s fun _ =>
    .next (s.withArch { lanes := zeroLanes, mode := m, phase := .absorb, cursor := 0#8 }).acknowledge := by
  simp only [exec, execInit]

theorem exec_rdsr (a : Byte) (s : State) : exec (.rdsr a) s = checked (.rdsr a) s fun h =>
    .next (s.answer (statusByte s.arch ⟨a.toNat, of_decide_eq_true h⟩)) := by
  simp only [exec, execRdsr]

theorem exec_absb (d : Byte) (s : State) : exec (.absb d) s = checked (.absb d) s fun _ =>
    match absorbByte s.arch.lanes s.arch.cursor.toNat d (rate s.arch.mode) with
    | some (S, c) => .next (s.withArch { s.arch with lanes := S, cursor := BitVec.ofNat 8 c }).acknowledge
    | none => .fault .cursorOutsideBlock := rfl

theorem exec_final (s : State) : exec .final s = checked .final s fun _ =>
    match pad s.arch.lanes s.arch.cursor.toNat Config.domainByte (rate s.arch.mode) with
    | some S => .next (s.withArch { s.arch with lanes := keccakF S, phase := .done }).acknowledge
    | none => .fault .cursorOutsideBlock := rfl

theorem exec_rdd (a : Byte) (s : State) : exec (.rdd a) s = checked (.rdd a) s fun h =>
    .next (s.answer (byteAt s.arch.lanes ⟨a.toNat, byteIndex_of_outLen (of_decide_eq_true h)⟩)) := by
  simp only [exec, execRdd]

theorem exec_ldb (a : Byte) (s : State) : exec (.ldb a) s = checked (.ldb a) s fun h =>
    .next (s.answer (byteAt s.arch.lanes ⟨a.toNat, of_decide_eq_true h⟩)) := by
  simp only [exec, execLdb]

theorem exec_stb (a d : Byte) (s : State) : exec (.stb a d) s = checked (.stb a d) s fun h =>
    .next (s.withLanes (setByte s.arch.lanes ⟨a.toNat, of_decide_eq_true h⟩ d)).acknowledge := by
  simp only [exec, execStb]

theorem exec_theta (s : State) : exec .theta s = checked .theta s fun _ =>
    .next (s.withLanes (theta s.arch.lanes)).acknowledge := by
  simp only [exec, execTheta]

theorem exec_rhopi (s : State) : exec .rhopi s = checked .rhopi s fun _ =>
    .next (s.withLanes (rhopi s.arch.lanes)).acknowledge := by
  simp only [exec, execRhopi]

theorem exec_chi (s : State) : exec .chi s = checked .chi s fun _ =>
    .next (s.withLanes (chi s.arch.lanes)).acknowledge := by
  simp only [exec, execChi]

theorem exec_iota (a : Byte) (s : State) : exec (.iota a) s = checked (.iota a) s fun h =>
    .next (s.withLanes (iota s.arch.lanes ⟨a.toNat, of_decide_eq_true h⟩)).acknowledge := by
  simp only [exec, execIota]

theorem exec_round (a : Byte) (s : State) : exec (.round a) s = checked (.round a) s fun h =>
    .next (s.withLanes (round s.arch.lanes ⟨a.toNat, of_decide_eq_true h⟩)).acknowledge := by
  simp only [exec, execRound]

theorem exec_perm (s : State) : exec .perm s = checked .perm s fun _ =>
    .next (s.withLanes (keccakF s.arch.lanes)).acknowledge := by
  simp only [exec, execPerm]

/-- Every command is the shared check around an effect of its own. -/
theorem exec_checked (i : Instr) (s : State) : ∃ body, exec i s = checked i s body := by
  cases i <;> simp only [exec_nop, exec_clr, exec_init, exec_rdsr, exec_absb, exec_final, exec_rdd, exec_ldb, exec_stb,
    exec_theta, exec_rhopi, exec_chi, exec_iota, exec_round, exec_perm] <;> exact ⟨_, rfl⟩

/-- A command the phase does not allow is refused with BAD_PHASE. -/
theorem exec_badPhase {i : Instr} {s : State} (h : legal i s.arch.phase = false) :
    exec i s = .next (s.refuse .badPhase) := by
  obtain ⟨body, hb⟩ := exec_checked i s
  rw [hb, checked_badPhase h]

/-- A command the phase allows whose index is out of range is refused with BAD_INDEX. -/
theorem exec_badIndex {i : Instr} {s : State} (h : legal i s.arch.phase = true) (hr : inRange i s.arch.mode = false) :
    exec i s = .next (s.refuse .badIndex) := by
  obtain ⟨body, hb⟩ := exec_checked i s
  rw [hb, checked_badIndex h hr]

/-- An acknowledged command with new lanes, as an answer with a new architectural state. -/
theorem acknowledge_withLanes (s : State) (S : Lanes) :
    (s.withLanes S).acknowledge = (s.withArch { s.arch with lanes := S }).answer 0x00#8 := rfl

/-- A command that passes both checks and answers a next state has its effect and answers OK. -/
theorem exec_passed {i : Instr} {s t : State} (hl : legal i s.arch.phase = true) (hr : inRange i s.arch.mode = true)
    (h : exec i s = .next t) : ∃ τ d, ArchEffect i s.arch τ ∧ t = (s.withArch τ).answer d := by
  cases i <;> simp only [exec_nop, exec_clr, exec_init, exec_rdsr, exec_absb, exec_final, exec_rdd, exec_ldb, exec_stb,
    exec_theta, exec_rhopi, exec_chi, exec_iota, exec_round, exec_perm] at h <;> rw [checked_passed hl hr] at h
  case absb =>
    split at h
    · next S c hS => cases h; exact ⟨_, _, ⟨S, c, hS, rfl⟩, rfl⟩
    · cases h
  case final =>
    split at h
    · next S hS => cases h; exact ⟨_, _, ⟨S, hS, rfl⟩, rfl⟩
    · cases h
  all_goals
    injection h with h
    subst h
    try rw [acknowledge_withLanes]
  case stb => exact ⟨_, _, ⟨of_decide_eq_true hr, rfl⟩, rfl⟩
  case iota => exact ⟨_, _, ⟨of_decide_eq_true hr, rfl⟩, rfl⟩
  case round => exact ⟨_, _, ⟨of_decide_eq_true hr, rfl⟩, rfl⟩
  all_goals exact ⟨_, _, rfl, rfl⟩

/-- Everything a command can answer with a next state: a refusal, which only answers, or its effect with an OK answer. -/
theorem exec_next_cases {i : Instr} {s t : State} (h : exec i s = .next t) :
    (legal i s.arch.phase = false ∧ t = s.refuse .badPhase) ∨
    (legal i s.arch.phase = true ∧ inRange i s.arch.mode = false ∧ t = s.refuse .badIndex) ∨
    (legal i s.arch.phase = true ∧ inRange i s.arch.mode = true ∧
      ∃ τ d, ArchEffect i s.arch τ ∧ t = (s.withArch τ).answer d) := by
  by_cases hl : legal i s.arch.phase = true
  · by_cases hr : inRange i s.arch.mode = true
    · exact .inr (.inr ⟨hl, hr, exec_passed hl hr h⟩)
    · rw [exec_badIndex hl (by simpa using hr)] at h; cases h; exact .inr (.inl ⟨hl, by simpa using hr, rfl⟩)
  · rw [exec_badPhase (by simpa using hl)] at h; cases h; exact .inl ⟨by simpa using hl, rfl⟩

/-- A command's effect and response depend on the architectural state alone. -/
theorem exec_congr_arch (i : Instr) (s u : State) (h : s.arch = u.arch) :
    (∃ r, exec i s = .fault r ∧ exec i u = .fault r) ∨ ∃ (τ : Arch) (c : Code) (d : Byte),
      exec i s = .next ((s.withArch τ).respond c d) ∧ exec i u = .next ((u.withArch τ).respond c d) := by
  have hb : ∀ (s : State) (c : Code), s.refuse c = (s.withArch s.arch).respond c 0 := fun _ _ => rfl
  by_cases hl : legal i s.arch.phase = true
  swap
  · rw [exec_badPhase (by simpa using hl), exec_badPhase (s := u) (by rw [← h]; simpa using hl), hb, hb, h]
    exact .inr ⟨_, _, _, rfl, rfl⟩
  by_cases hr : inRange i s.arch.mode = true
  swap
  · rw [exec_badIndex hl (by simpa using hr),
      exec_badIndex (s := u) (by rw [← h]; exact hl) (by rw [← h]; simpa using hr), hb, hb, h]
    exact .inr ⟨_, _, _, rfl, rfl⟩
  have hl' := hl
  have hr' := hr
  rw [h] at hl' hr'
  have hc : ∀ (s : State) (σ : Arch) d, ((s.withArch σ).answer d) = (s.withArch σ).respond .ok d := fun _ _ _ => rfl
  have ha : ∀ (s : State) d, (s.answer d) = (s.withArch s.arch).respond .ok d := fun _ _ => rfl
  have hk : ∀ (s : State), s.acknowledge = s.answer 0 := fun _ => rfl
  cases i <;> simp only [exec_nop, exec_clr, exec_init, exec_rdsr, exec_absb, exec_final, exec_rdd, exec_ldb, exec_stb,
    exec_theta, exec_rhopi, exec_chi, exec_iota, exec_round, exec_perm] <;>
    rw [checked_passed hl hr, checked_passed hl' hr']
  case absb d =>
    simp only [h]
    split
    · exact .inr ⟨_, .ok, 0, rfl, rfl⟩
    · exact .inl ⟨_, rfl, rfl⟩
  case final =>
    simp only [h]
    split
    · exact .inr ⟨_, .ok, 0, rfl, rfl⟩
    · exact .inl ⟨_, rfl, rfl⟩
  case rdsr a => simp only [h, ha]; exact .inr ⟨_, _, _, rfl, rfl⟩
  case ldb a => simp only [h, ha]; exact .inr ⟨_, _, _, rfl, rfl⟩
  case rdd a => simp only [h, ha]; exact .inr ⟨_, _, _, rfl, rfl⟩
  case nop => simp only [h, ha, hk]; exact .inr ⟨_, _, _, rfl, rfl⟩
  all_goals
    try simp only [acknowledge_withLanes]
    try simp only [hk]
    simp only [h, hc]; exact .inr ⟨_, _, _, rfl, rfl⟩

end Sys2Proof.Machine
end

