-- ==== Sys2Proof/Laws/PerInstr.lean ====
section
/-! SUPPORT. The per-instruction family RowMatch: the word of each command is a well-formed instance of its row of the opcode
table, `(w & mask) = match` (spec/30_encoding.md R54). -/

namespace Sys2Proof.Laws.RowMatch

/-- The word of the command agrees with its row's `match` under its row's `mask`. -/
def Statement (i : Instr) : Prop := encode i &&& rowMask i = rowMatch i

/-- The one reason behind every case: the fields the format gives no operand are zero in the word. -/
theorem of_fields {i : Instr} (h : encode i &&& mbz (formatOf i) = 0#32) : Statement i :=
  (and_mask_eq_match _ _ _).mpr ⟨opField_assembleWord _ _ _, h⟩

theorem nop : Statement .nop := of_fields rfl
theorem clr : Statement .clr := of_fields rfl
theorem init (m : BitVec 2) : Statement (.init m) := by
  refine of_fields ((append_and_mbz _ _ _ _ .m).mpr ⟨?_, rfl, rfl⟩)
  revert m; decide
theorem rdsr (a : Byte) : Statement (.rdsr a) := of_fields ((append_and_mbz _ _ _ _ .a).mpr ⟨rfl, rfl⟩)
theorem absb (d : Byte) : Statement (.absb d) := of_fields ((append_and_mbz _ _ _ _ .d).mpr ⟨rfl, rfl⟩)
theorem final : Statement .final := of_fields rfl
theorem rdd (a : Byte) : Statement (.rdd a) := of_fields ((append_and_mbz _ _ _ _ .a).mpr ⟨rfl, rfl⟩)
theorem ldb (a : Byte) : Statement (.ldb a) := of_fields ((append_and_mbz _ _ _ _ .a).mpr ⟨rfl, rfl⟩)
theorem stb (a d : Byte) : Statement (.stb a d) := of_fields ((append_and_mbz _ _ _ _ .ad).mpr rfl)
theorem theta : Statement .theta := of_fields rfl
theorem rhopi : Statement .rhopi := of_fields rfl
theorem chi : Statement .chi := of_fields rfl
theorem iota (a : Byte) : Statement (.iota a) := of_fields ((append_and_mbz _ _ _ _ .a).mpr ⟨rfl, rfl⟩)
theorem round (a : Byte) : Statement (.round a) := of_fields ((append_and_mbz _ _ _ _ .a).mpr ⟨rfl, rfl⟩)
theorem perm : Statement .perm := of_fields rfl

end Sys2Proof.Laws.RowMatch
end

