-- ==== Sys2Proof/Laws/Step.lean ====
section
/-! SUPPORT. One step, by the host's next event. -/

namespace Sys2Proof.Machine

variable {s : State} {es : List HostEvent} {w : Word}

/-- With no event the state is held. -/
theorem step_no_event (h : s.inputs = []) : step s = .next s := by
  simp [step, State.takeEvent, h]

/-- A word that decodes to a command is that command's execution. -/
theorem step_command {i : Instr} (h : s.inputs = .word w :: es) (hd : decode w = .command i) :
    step s = exec i (s.withInputs es) := by
  simp [step, State.takeEvent, h, hd]

/-- A word with an unassigned opcode is refused. -/
theorem step_illegalOpcode (h : s.inputs = .word w :: es) (hd : decode w = .illegalOpcode) :
    step s = .next ((s.withInputs es).refuse .illegalOpcode) := by
  simp [step, State.takeEvent, h, hd]

/-- A word with a must-be-zero bit set is refused. -/
theorem step_reservedField (h : s.inputs = .word w :: es) (hd : decode w = .reservedField) :
    step s = .next ((s.withInputs es).refuse .reservedField) := by
  simp [step, State.takeEvent, h, hd]

/-- A reset puts the block at its reset state. -/
theorem step_reset (h : s.inputs = .reset :: es) : step s = .next (s.withInputs es).resetBlock := by
  simp [step, State.takeEvent, h]

/-- A reset in the middle of a command does the same. -/
theorem step_abandoned (h : s.inputs = .abandoned w :: es) : step s = .next (s.withInputs es).resetBlock := by
  simp [step, State.takeEvent, h]

/-- What a step that answers a next state was: the host did nothing, a command was refused, a command was executed, or the block
was reset. -/
inductive StepCase (s t : State) : Prop
  /-- no event: the state is held -/
  | idle (h : s.inputs = []) (ht : t = s)
  /-- a word refused by one of the four checks: only the response is new -/
  | refused (w : Word) (es : List HostEvent) (c : Code) (h : s.inputs = .word w :: es) (hc : c ≠ .ok)
      (ht : t = (s.withInputs es).refuse c)
  /-- a command executed: it passed all checks, and `τ` is the architectural state it leaves -/
  | executed (w : Word) (es : List HostEvent) (i : Instr) (τ : Arch) (d : Byte) (h : s.inputs = .word w :: es)
      (hd : decode w = .command i) (hl : legal i s.arch.phase = true) (hr : inRange i s.arch.mode = true)
      (he : ArchEffect i s.arch τ) (ht : t = ((s.withInputs es).withArch τ).answer d)
  /-- a reset, alone or in the middle of a command -/
  | reset (e : HostEvent) (es : List HostEvent) (he : e = .reset ∨ ∃ w, e = .abandoned w) (h : s.inputs = e :: es)
      (ht : t = (s.withInputs es).resetBlock)

/-- Everything one step can do. -/
theorem step_cases {t : State} (h : step s = .next t) : StepCase s t := by
  match hi : s.inputs with
  | [] => rw [step_no_event hi] at h; cases h; exact .idle hi rfl
  | .reset :: es => rw [step_reset hi] at h; cases h; exact .reset _ _ (.inl rfl) hi rfl
  | .abandoned w :: es => rw [step_abandoned hi] at h; cases h; exact .reset _ _ (.inr ⟨w, rfl⟩) hi rfl
  | .word w :: es =>
    match hd : decode w with
    | .illegalOpcode => rw [step_illegalOpcode hi hd] at h; cases h; exact .refused _ _ _ hi (by decide) rfl
    | .reservedField => rw [step_reservedField hi hd] at h; cases h; exact .refused _ _ _ hi (by decide) rfl
    | .command i =>
      rw [step_command hi hd] at h
      rcases exec_next_cases h with ⟨_, rfl⟩ | ⟨_, _, rfl⟩ | ⟨hl, hr, τ, d, he, rfl⟩
      · exact .refused _ _ _ hi (by decide) rfl
      · exact .refused _ _ _ hi (by decide) rfl
      · exact .executed _ _ _ _ _ hi hd hl hr he rfl

end Sys2Proof.Machine
end

