-- ==== Sys2Proof/Laws/Safety.lean ====
section
/-! SUPPORT. What an acknowledged command answers and keeps, in the words of the claims. -/

namespace Sys2Proof.Machine

/-- A command that ends without data answers `(0, 0x00)`, whatever lanes it wrote. -/
theorem answered_acknowledge_withLanes (s : State) (S : Lanes) : Answered s (s.withLanes S).acknowledge 0x00#8 := by
  simp [Answered]

/-- A command that ends without data answers `(0, 0x00)`, whatever architectural state it wrote. -/
theorem answered_acknowledge_withArch (s : State) (σ : Arch) : Answered s (s.withArch σ).acknowledge 0x00#8 := by
  simp [Answered]

/-- A command that writes only lanes keeps the control registers and the waiting events. -/
theorem controlKept_acknowledge_withLanes (s : State) (S : Lanes) : ControlKept s (s.withLanes S).acknowledge := by
  simp [ControlKept]

/-- The invariant depends on the architectural state alone. -/
theorem State.inv_iff (s : State) : s.Inv ↔ s.arch.cursor.toNat < rate s.arch.mode ∧
    (s.arch.phase = .idle → s.arch.cursor = 0#8) :=
  ⟨fun h => ⟨h.cursor_lt_rate, h.idle_cursor⟩, fun h => ⟨h.1, h.2⟩⟩

/-- No step is the empty run. -/
@[simp] theorem State.run_zero (s : State) : s.run 0 = .next s := rfl

/-- A run is one step and then the rest of the run. -/
theorem State.run_succ_of_step {s t : State} (h : step s = .next t) (n : Nat) : s.run (n + 1) = t.run n := by
  simp [State.run, h]

/-- A run that answers a next state does so step by step. -/
theorem State.run_succ_next {s u : State} {n : Nat} (h : s.run (n + 1) = .next u) :
    ∃ t, step s = .next t ∧ t.run n = .next u := by
  simp only [State.run] at h
  split at h
  · next t ht => exact ⟨t, ht, h⟩
  · cases h
  · cases h

/-- Runs compose. -/
theorem State.run_add {s t : State} {m : Nat} (h : s.run m = .next t) (n : Nat) : s.run (m + n) = t.run n := by
  induction m generalizing s with
  | zero => cases h; rw [Nat.zero_add]
  | succ m ih =>
    obtain ⟨u, hu, hr⟩ := State.run_succ_next h
    rw [Nat.add_right_comm, State.run_succ_of_step hu, ih hr]

end Sys2Proof.Machine
end

