-- ==== Sys2Proof/Tests/Slice0.lean ====
section
/-! SUPPORT. Tests of the model, with expected values from spec/95_test_vectors.md (the spec derived them by evaluating its own
rules, and cross-checked the digests), and one witness for each statement that has hypotheses. -/

namespace Sys2Proof.Tests

open Sys2Proof.Machine

/-! ### Helpers -/

/-- A state with the given lanes, control registers and waiting events. -/
def blockState (S : Lanes) (m : BitVec 2) (p : Phase) (c : BitVec 8) (es : List HostEvent) : State :=
  ⟨⟨S, m, p, c⟩, es, []⟩

/-- Lanes that are zero but for the lane `i`. -/
def oneLane (i : Fin 25) (v : Lane) : Lanes := zeroLanes.set i.val v i.isLt

/-- Raw access with these lanes. -/
def idleState (S : Lanes) : State := blockState S 0#2 .idle 0#8 []

/-- The state an outcome goes on in. -/
def stateAfter : Host.Outcome State Fault Refusal → Option State
  | .next t => some t
  | .fault _ => none
  | .refused _ => none

/-- The lanes after an outcome. -/
def lanesAfter (o : Host.Outcome State Fault Refusal) : Option Lanes := (stateAfter o).map fun t => t.arch.lanes

/-- MODE, PHASE and CURSOR after an outcome. -/
def controlAfter (o : Host.Outcome State Fault Refusal) : Option (BitVec 2 × Phase × BitVec 8) :=
  (stateAfter o).map fun t => (t.arch.mode, t.arch.phase, t.arch.cursor)

/-- The newest response after an outcome. -/
def responseAfter (o : Host.Outcome State Fault Refusal) : Option Response :=
  (stateAfter o).bind fun t => t.responses.getLast?

/-- A step that presents the word `w` to `s`. -/
def send (s : State) (w : Nat) : Host.Outcome State Fault Refusal := step (s.withFetchWord 32 w)

/-! ### WellFormed refuses an ill-formed term at each check (30_encoding.md R59) -/

theorem test_wellFormed_rdsr : (Instr.rdsr 2#8).wellFormed = false ∧ (Instr.rdsr 1#8).wellFormed = true := by decide
theorem test_wellFormed_rdd : (Instr.rdd 64#8).wellFormed = false ∧ (Instr.rdd 63#8).wellFormed = true := by decide
theorem test_wellFormed_ldb : (Instr.ldb 200#8).wellFormed = false ∧ (Instr.ldb 199#8).wellFormed = true := by decide
theorem test_wellFormed_stb : (Instr.stb 200#8 0#8).wellFormed = false ∧ (Instr.stb 199#8 0#8).wellFormed = true := by decide
theorem test_wellFormed_iota : (Instr.iota 24#8).wellFormed = false ∧ (Instr.iota 23#8).wellFormed = true := by decide
theorem test_wellFormed_round : (Instr.round 24#8).wellFormed = false ∧ (Instr.round 23#8).wellFormed = true := by decide

/-! ### Decoding: words from the encodings of 30_encoding.md R53 to R55 and 95_test_vectors.md 5.1 -/

theorem test_decode_nop : decode 0x00000000#32 = .command .nop := by decide
theorem test_decode_clr : decode 0x01000000#32 = .command .clr := by decide
theorem test_decode_init : decode 0x02000000#32 = .command (.init 0#2) ∧ decode 0x02010000#32 = .command (.init 1#2) ∧
    decode 0x02020000#32 = .command (.init 2#2) ∧ decode 0x02030000#32 = .command (.init 3#2) := by decide
theorem test_decode_rdsr : decode 0x03000000#32 = .command (.rdsr 0#8) ∧ decode 0x03010000#32 = .command (.rdsr 1#8) ∧
    decode 0x03020000#32 = .command (.rdsr 2#8) := by decide
theorem test_decode_absb : decode 0x10000000#32 = .command (.absb 0x00#8) ∧ decode 0x10000061#32 = .command (.absb 0x61#8) ∧
    decode 0x100000FF#32 = .command (.absb 0xFF#8) := by decide
theorem test_decode_final : decode 0x11000000#32 = .command .final := by decide
theorem test_decode_rdd : decode 0x12000000#32 = .command (.rdd 0#8) ∧ decode 0x121B0000#32 = .command (.rdd 27#8) ∧
    decode 0x123F0000#32 = .command (.rdd 63#8) := by decide
theorem test_decode_ldb : decode 0x20000000#32 = .command (.ldb 0#8) ∧ decode 0x20C70000#32 = .command (.ldb 199#8) := by
  decide
theorem test_decode_stb : decode 0x21C70080#32 = .command (.stb 199#8 0x80#8) ∧
    decode 0x210F00AB#32 = .command (.stb 15#8 0xAB#8) := by decide
theorem test_decode_theta : decode 0x30000000#32 = .command .theta := by decide
theorem test_decode_rhopi : decode 0x31000000#32 = .command .rhopi := by decide
theorem test_decode_chi : decode 0x32000000#32 = .command .chi := by decide
theorem test_decode_iota : decode 0x33000000#32 = .command (.iota 0#8) ∧ decode 0x33170000#32 = .command (.iota 23#8) := by
  decide
theorem test_decode_round : decode 0x34000000#32 = .command (.round 0#8) ∧
    decode 0x34170000#32 = .command (.round 23#8) := by decide
theorem test_decode_perm : decode 0x35000000#32 = .command .perm := by decide

theorem test_decode_illegalOpcode : decode 0x04000000#32 = .illegalOpcode ∧ decode 0x13000000#32 = .illegalOpcode ∧
    decode 0x36000000#32 = .illegalOpcode ∧ decode 0xFFFFFFFF#32 = .illegalOpcode := by decide
theorem test_decode_reservedField : decode 0x00000001#32 = .reservedField ∧ decode 0x02040000#32 = .reservedField ∧
    decode 0x10010061#32 = .reservedField ∧ decode 0x11000100#32 = .reservedField ∧
    decode 0x21000100#32 = .reservedField ∧ decode 0x35000001#32 = .reservedField := by decide
theorem test_encode_stb : encode (.stb 15#8 0xAB#8) = 0x210F00AB#32 := by decide
theorem test_decodeTableWord : decodeTableWord 32 0x21C70080 = some (.stb 199#8 0x80#8) ∧
    decodeTableWord 32 0x04000000 = none := by decide

/-! ### One step of each command -/

/-- 42_variants_control.md R114: no state is written. -/
theorem test_nop : stateAfter (send (idleState (oneLane 3 7#64)) 0x00000000) =
    some ⟨⟨oneLane 3 7#64, 0#2, .idle, 0#8⟩, [], [⟨.ok, 0x00#8⟩]⟩ := by decide

/-- 95_test_vectors.md 5.3: after INIT 3 and bytes, CLR zeroes CURSOR and keeps MODE. -/
theorem test_clr : controlAfter (send (blockState (oneLane 0 0xFF#64) 3#2 .absorb 1#8 []) 0x01000000) =
    some (3#2, .idle, 0#8) := by decide
theorem test_clr_lanes : lanesAfter (send (blockState (oneLane 0 0xFF#64) 3#2 .absorb 1#8 []) 0x01000000) =
    some zeroLanes := by decide

/-- 95_test_vectors.md 5.3: INIT 2 in any state. -/
theorem test_init : stateAfter (send (blockState (oneLane 9 5#64) 1#2 .done 7#8 []) 0x02020000) =
    some ⟨⟨zeroLanes, 2#2, .absorb, 0#8⟩, [], [⟨.ok, 0x00#8⟩]⟩ := by decide

/-- 95_test_vectors.md 5.3: RDSR 1 after `INIT 1; ABSB 0x61` and after `INIT 3; FINAL`. -/
theorem test_rdsr : responseAfter (send (blockState zeroLanes 1#2 .absorb 1#8 []) 0x03010000) = some ⟨.ok, 0x05#8⟩ ∧
    responseAfter (send (blockState zeroLanes 3#2 .done 0#8 []) 0x03010000) = some ⟨.ok, 0x0B#8⟩ := by decide
/-- 95_test_vectors.md 5.3: RDSR 0 is CURSOR, RDSR 2 is refused with 4. -/
theorem test_rdsr_range : responseAfter (send (blockState zeroLanes 1#2 .absorb 1#8 []) 0x03000000) = some ⟨.ok, 0x01#8⟩ ∧
    responseAfter (send State.reset 0x03020000) = some ⟨.badIndex, 0x00#8⟩ := by decide

/-- 95_test_vectors.md 4.1: the third byte of "abc"; CURSOR becomes 3. -/
theorem test_absb : stateAfter (send (blockState (oneLane 0 0x6261#64) 1#2 .absorb 2#8 []) 0x10000063) =
    some ⟨⟨oneLane 0 0x636261#64, 1#2, .absorb, 3#8⟩, [], [⟨.ok, 0x00#8⟩]⟩ := by decide
/-- 95_test_vectors.md 5.2: the 72nd byte `0x00` of SHA3-512 permutes the zero state; `A[24]` of section 3.3. -/
theorem test_absb_fills_block :
    ((lanesAfter (send (blockState zeroLanes 3#2 .absorb 71#8 []) 0x10000000)).map fun S => S[24]) =
      some 0xEAF1FF7B5CECA249#64 := by decide +kernel

/-- 95_test_vectors.md 2 T1 and P1: SHA3-256 of the empty message begins A7 FF C6 F8 BF 1E D7 66. -/
theorem test_final : ((lanesAfter (send (blockState zeroLanes 1#2 .absorb 0#8 []) 0x11000000)).map fun S => S[0]) =
    some 0x66D71EBFF8C6FFA7#64 := by decide +kernel
/-- 95_test_vectors.md 5.2: with CURSOR = rate - 1 both padding bytes meet in `B[143]`. -/
theorem test_pad_same_byte : ((pad (oneLane 17 0x00A3A3A3A3A3A3A3#64) 143 0x06#8 144).map fun S => S[17]) =
    some 0x86A3A3A3A3A3A3A3#64 := by decide

/-- 95_test_vectors.md 5.2: after SHA3-256, RDD 31 answers a byte and RDD 32 is refused with 4. -/
theorem test_rdd : responseAfter (send (blockState (oneLane 3 0x4A00000000000000#64) 1#2 .done 0#8 []) 0x121F0000) =
      some ⟨.ok, 0x4A#8⟩ ∧
    responseAfter (send (blockState zeroLanes 1#2 .done 0#8 []) 0x12200000) = some ⟨.badIndex, 0x00#8⟩ := by decide
/-- 95_test_vectors.md P2: SHA3-512 has byte 63 and no byte 64. -/
theorem test_rdd_sha3_512 : responseAfter (send (blockState (oneLane 7 0xF000000000000000#64) 3#2 .done 3#8 []) 0x123F0000) =
      some ⟨.ok, 0xF0#8⟩ ∧
    responseAfter (send (blockState zeroLanes 3#2 .done 3#8 []) 0x12400000) = some ⟨.badIndex, 0x00#8⟩ := by decide

/-- 95_test_vectors.md 5.3: LDB 15 and LDB 14 after STB 15, 0xAB. -/
theorem test_ldb : responseAfter (send (idleState (oneLane 1 0xAB00000000000000#64)) 0x200F0000) = some ⟨.ok, 0xAB#8⟩ ∧
    responseAfter (send (idleState (oneLane 1 0xAB00000000000000#64)) 0x200E0000) = some ⟨.ok, 0x00#8⟩ := by decide

/-- 95_test_vectors.md 5.3: STB 15, 0xAB from reset. -/
theorem test_stb : lanesAfter (send State.reset 0x210F00AB) = some (oneLane 1 0xAB00000000000000#64) := by decide
/-- 95_test_vectors.md 5.3: STB 200 is refused with 4 and nothing else happens. -/
theorem test_stb_range : stateAfter (send State.reset 0x21C80000) =
    some ⟨Arch.reset, [], [⟨.badIndex, 0x00#8⟩]⟩ := by decide

/-- 95_test_vectors.md 3.2: theta of `A[0] = 1`. -/
theorem test_theta : lanesAfter (send (idleState (oneLane 0 1#64)) 0x30000000) =
    some #v[1#64, 1#64, 0#64, 0#64, 2#64, 0#64, 1#64, 0#64, 0#64, 2#64, 0#64, 1#64, 0#64, 0#64, 2#64,
      0#64, 1#64, 0#64, 0#64, 2#64, 0#64, 1#64, 0#64, 0#64, 2#64] := by decide +kernel

/-- 95_test_vectors.md 3.2: rhopi of `A[6] = 8000000000000001` and of `A[1] = 1`. -/
theorem test_rhopi : lanesAfter (send (idleState (oneLane 6 0x8000000000000001#64)) 0x31000000) =
      some (oneLane 1 0x0000180000000000#64) ∧
    lanesAfter (send (idleState (oneLane 1 1#64)) 0x31000000) = some (oneLane 10 2#64) := by decide +kernel
/-- 95_test_vectors.md 3.3: rhopi of the theta result above. -/
theorem test_rhopi_round1 : rhopi (theta (oneLane 0 1#64)) =
    #v[0x1#64, 0x100000000000#64, 0#64, 0#64, 0x8000#64, 0#64, 0x200000#64, 0#64, 0x200000000000#64, 0#64,
      0x2#64, 0#64, 0#64, 0x200#64, 0#64, 0x10000000#64, 0#64, 0x400#64, 0#64, 0#64,
      0#64, 0#64, 0x10000000000#64, 0#64, 0x4#64] := by decide +kernel

/-- 95_test_vectors.md 3.2: chi of the row `01 02 04 08 10`. -/
theorem test_chi : lanesAfter (send
      (idleState (((((zeroLanes.set 5 1#64).set 6 2#64).set 7 4#64).set 8 8#64).set 9 16#64)) 0x32000000) =
    some (((((zeroLanes.set 5 5#64).set 6 10#64).set 7 20#64).set 8 9#64).set 9 18#64) := by decide +kernel

/-- 95_test_vectors.md 3.2: iota with round index 23. -/
theorem test_iota : lanesAfter (send State.reset 0x33170000) = some (oneLane 0 0x8000000080008008#64) := by decide +kernel
/-- 95_test_vectors.md 5.3: IOTA 24 from reset is refused with 4, after INIT 1 with 3. -/
theorem test_iota_refused : responseAfter (send State.reset 0x33180000) = some ⟨.badIndex, 0x00#8⟩ ∧
    responseAfter (send (blockState zeroLanes 1#2 .absorb 0#8 []) 0x33180000) = some ⟨.badPhase, 0x00#8⟩ := by decide

/-- 95_test_vectors.md 3.3: `round(round(0, 0), 1)`. -/
theorem test_round : lanesAfter (send (idleState (oneLane 0 1#64)) 0x34010000) =
    some #v[0x8083#64, 0x100000000000#64, 0x8000#64, 0x1#64, 0x100000008000#64,
      0#64, 0x200000200000#64, 0#64, 0x200000000000#64, 0x200000#64,
      0x2#64, 0x200#64, 0#64, 0x202#64, 0#64, 0x10000400#64, 0#64, 0x400#64, 0x10000000#64, 0#64,
      0x10000000000#64, 0#64, 0x10000000004#64, 0#64, 0x4#64] := by decide +kernel

/-- 95_test_vectors.md 3.3: `A[0]` and `A[12]` of `keccak_f(0)`. -/
theorem test_perm : ((lanesAfter (send State.reset 0x35000000)).map fun S => (S[0], S[12])) =
    some (0xF1258F7940E1DDE7#64, 0x81A57C16DBCF555F#64) := by decide +kernel

/-- 95_test_vectors.md P5: refused words answer 1 and 3. -/
theorem test_refusals : stateAfter (send State.reset 0x04000000) = some ⟨Arch.reset, [], [⟨.illegalOpcode, 0x00#8⟩]⟩ ∧
    stateAfter (send State.reset 0x02040000) = some ⟨Arch.reset, [], [⟨.reservedField, 0x00#8⟩]⟩ ∧
    stateAfter (send State.reset 0x10000061) = some ⟨Arch.reset, [], [⟨.badPhase, 0x00#8⟩]⟩ := by decide
/-- 60_exceptions.md R132, 30_encoding.md R63: a response as bits. -/
theorem test_responseBits : responseBits ⟨.badIndex, 0x00#8⟩ = 0x400#12 ∧ responseBits ⟨.ok, 0xA7#8⟩ = 0x0A7#12 := by
  decide

/-! ### Functions and text -/

/-- 95_test_vectors.md 3.1. -/
theorem test_rotl64 : rotl64 0x8000000000000001#64 1 = 3#64 ∧ rotl64 1#64 63 = 0x8000000000000000#64 ∧
    rotl64 0x0123456789ABCDEF#64 4 = 0x123456789ABCDEF0#64 ∧ rotl64 0x0123456789ABCDEF#64 62 = 0xC048D159E26AF37B#64 := by
  decide
/-- 20_memory.md R31: little-endian within a lane. -/
theorem test_memRead : memRead (oneLane 0 0x0706050403020100#64) 2 4 (by decide) = 0x05040302 := by decide
theorem test_memWrite : memWrite zeroLanes 6 4 (by decide) 0x04030201 =
    (oneLane 0 0x0201000000000000#64).set 1 0x0403#64 := by decide
/-- 95_test_vectors.md 5.1: script lines and the commands of their words. -/
theorem test_readLine : readLine "STB 15, 0xAB".toList = some (.stb 15#8 0xAB#8) ∧
    readLine "INIT SHA3_512 ; start".toList = some (.init 3#2) ∧ readLine "ROUND 23".toList = some (.round 23#8) ∧
    readLine "ABSB 0xfF".toList = some (.absb 0xFF#8) ∧ readLine "ABSB 256".toList = none ∧
    readLine "ABSB 0x1G".toList = none ∧ readLine "ABSB 1A".toList = none := by decide +kernel
/-- 30_encoding.md R62. -/
theorem test_expand : expand (.hash 1#2 [0x61#8]) = .init 1#2 :: .absb 0x61#8 :: .final :: expand (.digest 1#2) ∧
    (expand (.digest 3#2)).getLast? = some (.rdd 63#8) ∧ (expand .permx)[23]? = some (.round 23#8) := by decide +kernel

/-! ### Witnesses: a concrete state and operands that meet the hypotheses of each statement, at the boundaries of its clauses -/

/-- The word of `i` waits, and then the events `es`. -/
def waiting (i : Instr) (es : List HostEvent) : State := blockState zeroLanes 1#2 .absorb 135#8 (.word (encode i) :: es)

theorem witness_EncodeOfDecode : decode 0x02030000#32 = .command (.init 3#2) := by decide
theorem witness_StepRunsDecodedCommand : (waiting (.absb 0xFF#8) [.reset]).inputs = .word 0x100000FF#32 :: [.reset] ∧
    decode 0x100000FF#32 = .command (.absb 0xFF#8) := by decide
theorem witness_StepRefusesUndecodableWords :
    (blockState zeroLanes 0#2 .idle 0#8 [.word 0xFFFFFFFF#32, .word 0x00000001#32]).inputs =
      .word 0xFFFFFFFF#32 :: [.word 0x00000001#32] ∧
    decode 0xFFFFFFFF#32 = .illegalOpcode ∧
    (blockState zeroLanes 0#2 .idle 0#8 [.word 0x00000001#32]).inputs = .word 0x00000001#32 :: [] ∧
    decode 0x00000001#32 = .reservedField := by decide
theorem witness_IdleBlockHoldsState : (blockState zeroLanes 2#2 .done 5#8 []).inputs = [] := by decide
theorem witness_ResetFromAnyState : (blockState zeroLanes 2#2 .done 5#8 [.reset]).inputs = .reset :: [] := by decide
theorem witness_ResetAbandonsCommand : (blockState zeroLanes 2#2 .idle 0#8 [.abandoned 0x35000000#32]).inputs =
    .abandoned 0x35000000#32 :: [] := by decide
theorem witness_FirstCommandAfterReset : State.reset.arch = Arch.reset ∧
    (∀ d, Instr.ldb 199#8 ≠ .absb d) ∧ Instr.ldb 199#8 ≠ .final ∧ (∀ a, Instr.ldb 199#8 ≠ .rdd a) ∧
    (Instr.ldb 199#8).wellFormed = true :=
  ⟨rfl, fun _ h => (nomatch h), fun h => (nomatch h), fun _ h => (nomatch h), by decide⟩
theorem witness_OneResponsePerWord : ∃ t, (waiting .nop []).inputs = .word (encode .nop) :: [] ∧
    step (waiting .nop []) = .next t := ⟨_, rfl, rfl⟩
theorem witness_CommandWordsRunToTheEnd : (waiting .nop [.word 0x10000000#32]).Inv ∧
    wordsOnly (waiting .nop [.word 0x10000000#32]).inputs = true ∧
    (waiting .nop [.word 0x10000000#32]).inputs.length ≤ 2 := ⟨⟨by decide, by decide⟩, by decide, by decide⟩
theorem witness_StepKeepsInvariant : ∃ t, (waiting .nop []).Inv ∧ step (waiting .nop []) = .next t :=
  ⟨_, ⟨by decide, by decide⟩, rfl⟩
theorem witness_NoStopFromTheInvariant : (waiting .final [.reset]).Inv := ⟨by decide, by decide⟩
theorem witness_CursorOutsideBlockStops : (blockState zeroLanes 1#2 .absorb 136#8 []).arch.phase = .absorb ∧
    rate (blockState zeroLanes 1#2 .absorb 136#8 []).arch.mode ≤
      (blockState zeroLanes 1#2 .absorb 136#8 []).arch.cursor.toNat := by decide
theorem witness_RefusalChangesNothing : ∃ t, (waiting (.rdsr 2#8) []).inputs = .word (encode (.rdsr 2#8)) :: [] ∧
    step (waiting (.rdsr 2#8) []) = .next t ∧
    t.responses = (waiting (.rdsr 2#8) []).responses ++ [⟨.badIndex, 0x00#8⟩] ∧ Code.badIndex ≠ .ok :=
  ⟨_, rfl, rfl, rfl, by decide⟩
theorem witness_LowestCodeIsReported : ∃ t, (blockState zeroLanes 1#2 .absorb 0#8 [.word 0x33180000#32]).inputs =
      .word 0x33180000#32 :: [] ∧
    step (blockState zeroLanes 1#2 .absorb 0#8 [.word 0x33180000#32]) = .next t ∧
    t.responses = (blockState zeroLanes 1#2 .absorb 0#8 [.word 0x33180000#32]).responses ++ [⟨.badPhase, 0x00#8⟩] ∧
    decode 0x33180000#32 = .command (.iota 24#8) ∧ legal (.iota 24#8) .absorb = false ∧ inRange (.iota 24#8) 1#2 = false :=
  ⟨_, rfl, rfl, rfl, by decide, by decide, by decide⟩
/-- The clause of BAD_INDEX and the clause of OK, at the two sides of the range of RDD in SHA3-224. -/
theorem witness_LowestCodeIsReported_rdd : decode 0x121B0000#32 = .command (.rdd 27#8) ∧
    legal (.rdd 27#8) .done = true ∧ inRange (.rdd 27#8) 0#2 = true ∧
    decode 0x121C0000#32 = .command (.rdd 28#8) ∧ legal (.rdd 28#8) .done = true ∧ inRange (.rdd 28#8) 0#2 = false := by
  decide
theorem witness_RefusedAgain : ∃ t, RefusedWith .perm (waiting .nop []) .badPhase ∧ exec .perm (waiting .nop []) = .next t :=
  ⟨_, rfl, rfl⟩
theorem witness_ReservedBitsRefused : (blockState zeroLanes 0#2 .idle 0#8 [.word 0x02040000#32]).inputs =
      .word 0x02040000#32 :: [] ∧ opField 0x02040000#32 = 0x02#8 ∧ 0x02040000#32 &&& 0x00FCFFFF#32 ≠ 0#32 := by decide
/-- The index clauses of RDSR, LDB, STB, IOTA, ROUND and RDD at both sides of their bounds. -/
theorem witness_index_bounds : 2 ≤ (2#8).toNat ∧ 2 ≤ (255#8).toNat ∧ (199#8).toNat < 200 ∧ 200 ≤ (200#8).toNat ∧
    (23#8).toNat < 24 ∧ 24 ≤ (24#8).toNat ∧ (27#8).toNat < outLen 0#2 ∧ outLen 0#2 ≤ (28#8).toNat ∧
    (63#8).toNat < outLen 3#2 ∧ outLen 3#2 ≤ (64#8).toNat := by decide
/-- The phase clauses of the command rules. -/
theorem witness_phases : (idleState zeroLanes).arch.phase = .idle ∧ (idleState zeroLanes).arch.phase ≠ .absorb ∧
    (idleState zeroLanes).arch.phase ≠ .done ∧ (waiting .nop []).arch.phase = .absorb ∧
    (waiting .nop []).arch.phase ≠ .idle ∧ (blockState zeroLanes 0#2 .done 0#8 []).arch.phase = .done := by decide
/-- StbRule's last clause: the first and the last byte index, with another byte beside each. -/
theorem witness_StbRule : (idleState zeroLanes).arch.phase = .idle ∧ (0#8).toNat < 200 ∧ (199#8).toNat < 200 ∧
    (198 : Fin 200).val ≠ (199#8).toNat := by decide
/-- AbsbRule and FinalRule: CURSOR at the start of the block, one before its last byte, and at its last byte. -/
theorem witness_AbsbRule_FinalRule :
    (blockState zeroLanes 1#2 .absorb 0#8 []).arch.cursor.toNat < rate 1#2 ∧
    (blockState zeroLanes 1#2 .absorb 134#8 []).arch.cursor.toNat + 1 < rate 1#2 ∧
    (waiting .nop []).arch.phase = .absorb ∧ (waiting .nop []).arch.cursor.toNat < rate (waiting .nop []).arch.mode ∧
    (waiting .nop []).arch.cursor.toNat + 1 = rate (waiting .nop []).arch.mode := by decide
theorem witness_RoundIsItsFourCommands : ∃ t, (idleState zeroLanes).arch.phase = .idle ∧ (23#8).toNat < 24 ∧
    exec (.round 23#8) (idleState zeroLanes) = .next t := by
  rw [exec_round, checked_passed (by decide) (by decide)]
  exact ⟨_, by decide, by decide, rfl⟩
theorem witness_PermIsTwentyFourRounds : ∃ t, (idleState zeroLanes).arch.phase = .idle ∧
    exec .perm (idleState zeroLanes) = .next t := by
  rw [exec_perm, checked_passed (by decide) (by decide)]
  exact ⟨_, by decide, rfl⟩
/-- RotationMovesBits at both ends of the range of the amount and of the bit. -/
theorem witness_RotationMovesBits : 1 ≤ 1 ∧ 1 ≤ 63 ∧ 1 ≤ 63 ∧ 63 ≤ 63 ∧ 0 < 64 ∧ 63 < 64 := by decide
theorem witness_UniformStatesAreFixed : (0#64 = 0#64 ∨ 0#64 = BitVec.allOnes 64) ∧
    (0xFFFFFFFFFFFFFFFF#64 = 0#64 ∨ 0xFFFFFFFFFFFFFFFF#64 = BitVec.allOnes 64) := by decide
/-- ByteViewIsLaneView: the last byte of the last lane, and the first and last bit of a byte and of a lane. -/
theorem witness_ByteViewIsLaneView : 8 * (24 : Fin 25).val + (7 : Fin 8).val < 200 ∧ 0 < 8 ∧ 7 < 8 ∧ 0 < 64 ∧ 63 < 64 := by
  decide
/-- PaddingTouchesTwoBytes: the same byte twice, two bytes, the largest rate; and both ways to have no result. -/
theorem witness_PaddingTouchesTwoBytes : (143 < 144 ∧ 144 ≤ 200) ∧ (0 < 1 ∧ 1 ≤ 200) ∧ (0 < 200 ∧ 200 ≤ 200) ∧
    (144 ≤ 144 ∨ 200 < 144) ∧ (201 ≤ 0 ∨ 200 < 201) := by decide
theorem witness_AbsorbOffset : (1 ≤ 1 ∧ 1 ≤ 200) ∧ (1 ≤ 200 ∧ 200 ≤ 200) ∧ (0 = 0 ∨ 200 < 0) ∧ (201 = 0 ∨ 200 < 201) := by
  decide
theorem witness_SqueezeContract : (1 ≤ 64 ∧ 64 ≤ 72 ∧ 72 ≤ 200 ∧ 71 < 72) ∧ (1 ≤ 1 ∧ 1 ≤ 1 ∧ 1 ≤ 200 ∧ 0 < 1) ∧
    (0 = 0 ∨ 72 < 0 ∨ 200 < 72 ∨ 72 ≤ 71) ∧ (1 = 0 ∨ 72 < 1 ∨ 200 < 72 ∨ 72 ≤ 72) := by decide
theorem witness_ModeIsWrittenByInitOnly : ∃ t, (∀ m, Instr.clr ≠ .init m) ∧ exec .clr (waiting .nop []) = .next t :=
  ⟨_, fun _ h => (nomatch h), rfl⟩
theorem witness_CursorIsWrittenByThreeCommands : ∃ t u, exec .clr (waiting .nop []) = .next t ∧
    exec .nop (waiting .nop []) = .next u ∧ Instr.nop ≠ .clr ∧ (∀ m, Instr.nop ≠ .init m) ∧ ∀ d, Instr.nop ≠ .absb d :=
  ⟨_, _, rfl, rfl, by decide, fun _ h => (nomatch h), fun _ h => (nomatch h)⟩
theorem witness_PhaseTransitions : ∃ t u v, exec .clr (waiting .nop []) = .next t ∧
    exec (.init 0#2) (waiting .nop []) = .next u ∧ exec .final (idleState zeroLanes) = .next v ∧
    (idleState zeroLanes).arch.phase ≠ .absorb := ⟨_, _, _, rfl, rfl, rfl, by decide⟩
/-- PhaseTransitions, the clause of a finalised hash. -/
theorem witness_PhaseTransitions_final : ∃ t, exec .final (waiting .nop []) = .next t ∧
    (waiting .nop []).arch.phase = .absorb := by
  rw [exec_final, checked_passed (by decide) (by decide), pad_eq ⟨by decide, by decide⟩]
  exact ⟨_, rfl, by decide⟩
theorem witness_ReadsAndIdempotence : ∃ t u, exec (.stb 3#8 9#8) (idleState zeroLanes) = .next t ∧
    exec (.stb 3#8 9#8) t = .next u := ⟨_, _, rfl, rfl⟩
theorem witness_ReadsAndIdempotence_reads : ∃ t, exec (.ldb 199#8) (idleState zeroLanes) = .next t := ⟨_, rfl⟩
/-- DigestIsImmutable: a run over a read, a refused command and a refused word. -/
theorem witness_DigestIsImmutable : ∃ t, (blockState zeroLanes 1#2 .done 0#8
      [.word 0x12000000#32, .word 0x35000000#32, .word 0xFFFFFFFF#32]).arch.phase = .done ∧
    [HostEvent.word 0x12000000#32, .word 0x35000000#32, .word 0xFFFFFFFF#32].all (fun e => !endsDigest e) = true ∧
    (blockState zeroLanes 1#2 .done 0#8 [.word 0x12000000#32, .word 0x35000000#32, .word 0xFFFFFFFF#32]).run 3 = .next t :=
  ⟨_, by decide, by decide, rfl⟩
/-- InitForgetsThePast: two different states, into which the same INIT and the same ABSB are sent. -/
theorem witness_InitForgetsThePast : ∃ t, (waiting (.init 2#2) [.word 0x10000061#32]).inputs =
      .word (encode (.init 2#2)) :: [.word 0x10000061#32] ∧
    (blockState (oneLane 4 1#64) 0#2 .done 9#8 [.word (encode (.init 2#2)), .word 0x10000061#32]).inputs =
      (waiting (.init 2#2) [.word 0x10000061#32]).inputs ∧
    (waiting (.init 2#2) [.word 0x10000061#32]).run (1 + 1) = .next t := ⟨_, rfl, rfl, rfl⟩
theorem witness_OneShotHash : (blockState zeroLanes 1#2 .done 3#8 (present (hashScript 2#2 [0x61#8]))).inputs =
    present (hashScript 2#2 [0x61#8]) := rfl
theorem witness_LoadThenDump : (blockState zeroLanes 1#2 .idle 0#8
      (present (expand (.load (Vector.replicate 200 7#8)) ++ expand .dump))).arch.phase = .idle ∧
    (blockState zeroLanes 1#2 .idle 0#8 (present (expand (.load (Vector.replicate 200 7#8)) ++ expand .dump))).inputs =
      present (expand (.load (Vector.replicate 200 7#8)) ++ expand .dump) := ⟨rfl, rfl⟩

end Sys2Proof.Tests
end

section
/-! The architectural state after reset and the state CLR leaves (spec/10_state.md R23, spec/42_variants_control.md R113). -/

namespace Sys2Proof.Machine

@[simp] theorem zeroLanes_getElem (i : Nat) (h : i < 25) : zeroLanes[i] = 0#64 := Vector.getElem_replicate h

/-- Every byte of all-zero lanes is 0: the byte view (R30) shows the lanes and nothing else. -/
@[simp] theorem byteAt_zeroLanes (k : Fin 200) : byteAt zeroLanes k = 0#8 := by
  have hlane : zeroLanes[laneOfByte k] = 0#64 := zeroLanes_getElem _ _
  simp [byteAt, laneByte, hlane]

/-- CLR passes both checks in every phase and mode, and leaves R23's values but for MODE (R113, R120). -/
theorem exec_clr_eq_next (s : State) :
    exec .clr s = .next (s.withArch { Arch.reset with mode := s.arch.mode }).acknowledge := by
  have hlegal : legal .clr s.arch.phase = true := rfl
  have hrange : inRange .clr s.arch.mode = true := rfl
  rw [exec_clr, checked_passed hlegal hrange]
  rfl

/-- Settles O12: the reset lanes are `zeroLanes`, read lane by lane and byte by byte; CLR by `exec_clr_eq_next`. -/
theorem resetValues : Obligations.ResetValues := by
  refine ⟨fun i => zeroLanes_getElem i.val i.isLt, byteAt_zeroLanes, rfl, rfl, rfl, fun s => ?_⟩
  exact ⟨_, exec_clr_eq_next s, rfl⟩

end Sys2Proof.Machine
end

section
/-! The byte view against the lane view (spec/20_memory.md R30, R31): byte `8i + k` is byte `k` of lane `i`, for a read, for a write
of either view, and for the little-endian `MemRead` of the whole lane. -/

namespace Sys2Proof.Machine

/-- Byte `8i + k` of the view is byte `k` of lane `i` (R30). -/
theorem byteAt_laneIndex (S : Lanes) (i : Fin 25) (k : Fin 8) (h : 8 * i.val + k.val < 200) :
    byteAt S ⟨8 * i.val + k.val, h⟩ = laneByte S[i] k.val := by
  have hlane : (8 * i.val + k.val) / 8 = i.val := by omega
  have hbyte : (8 * i.val + k.val) % 8 = k.val := by omega
  simp only [byteAt, laneOfByte, hlane, hbyte]

/-- A write of byte `8i + k` is a write of byte `k` of lane `i` (R30). -/
theorem setByte_laneIndex (S : Lanes) (i : Fin 25) (k : Fin 8) (h : 8 * i.val + k.val < 200) (v : Byte) :
    setByte S ⟨8 * i.val + k.val, h⟩ v = S.set i.val (replaceLaneByte S[i] k.val v) i.isLt := by
  have hlane : (8 * i.val + k.val) / 8 = i.val := by omega
  have hbyte : (8 * i.val + k.val) % 8 = k.val := by omega
  simp only [setByte, laneOfByte, hlane, hbyte]

/-- Every byte after a write of a whole lane. -/
theorem byteAt_set (S : Lanes) (i : Fin 25) (v : Lane) (k : Fin 200) :
    byteAt (S.set i.val v i.isLt) k = if k.val / 8 = i.val then laneByte v (k.val % 8) else byteAt S k := by
  simp only [byteAt, Fin.getElem_fin, Vector.getElem_set, laneOfByte, eq_comm (a := i.val)]
  split <;> rfl

/-- The value of a byte of a lane. -/
theorem laneByte_toNat (v : Lane) (j : Nat) : (laneByte v j).toNat = v.toNat / 2 ^ (8 * j) % 256 := by
  rw [laneByte, BitVec.extractLsb'_toNat, Nat.shiftRight_eq_div_pow]

/-- A byte of a lane as the lane shifted down and cut to eight bits. -/
theorem laneByte_eq_ushiftRight (v : Lane) (j : Nat) : laneByte v j = (v >>> (8 * j)).setWidth 8 := by
  apply BitVec.eq_of_toNat_eq
  rw [laneByte_toNat, BitVec.toNat_setWidth, BitVec.toNat_ushiftRight, Nat.shiftRight_eq_div_pow]

/-- Reading `n` bytes of lane `i` from its byte `k` on gives the lane's bits `8k .. 8k + 8n - 1`, as a number (R9, R31). -/
theorem memRead_withinLane (S : Lanes) (i : Fin 25) (n k : Nat) (hk : k + n ≤ 8) (h : 8 * i.val + k + n ≤ 200) :
    memRead S (8 * i.val + k) n h = (S[i]).toNat / 2 ^ (8 * k) % 2 ^ (8 * n) := by
  induction n generalizing k with
  | zero => simp [memRead, Nat.mod_one]
  | succ n ih =>
    have hhead := byteAt_laneIndex S i ⟨k, by omega⟩ (by simp only; omega)
    have hrest := ih (k + 1) (by omega) (by omega)
    calc memRead S (8 * i.val + k) (n + 1) h
        = (S[i]).toNat / 2 ^ (8 * k) % 256 + 256 * ((S[i]).toNat / 2 ^ (8 * (k + 1)) % 2 ^ (8 * n)) := by
          rw [memRead, hhead, laneByte_toNat, ← hrest]; rfl
      _ = (S[i]).toNat / 2 ^ (8 * k) % 256 + 256 * ((S[i]).toNat / 2 ^ (8 * k) / 256 % 2 ^ (8 * n)) := by
          rw [Nat.div_div_eq_div_mul, Nat.mul_succ, Nat.pow_add]
      _ = (S[i]).toNat / 2 ^ (8 * k) % 2 ^ (8 * (n + 1)) := by
          rw [Nat.mul_succ 8 n, Nat.add_comm (8 * n) 8, Nat.pow_add, Nat.mod_mul]

/-- The lane is the little-endian value of its eight bytes (R30). -/
theorem lane_toNat_eq_memRead (S : Lanes) (i : Fin 25) (h : 8 * i.val + 8 ≤ 200) :
    (S[i]).toNat = memRead S (8 * i.val) 8 h := by
  have hwhole := memRead_withinLane S i 8 0 (by decide) h
  rw [Nat.mul_zero, Nat.pow_zero, Nat.div_one, Nat.mod_eq_of_lt (S[i]).isLt] at hwhole
  exact hwhole.symm

/-- Every bit of every lane after a write of one byte (R30). -/
theorem setByte_laneIndex_getLsbD (S : Lanes) (i j : Fin 25) (k : Fin 8) (h : 8 * i.val + k.val < 200) (v : Byte) (b : Nat)
    (hb : b < 64) :
    ((setByte S ⟨8 * i.val + k.val, h⟩ v)[j]).getLsbD b =
      if j = i ∧ 8 * k.val ≤ b ∧ b ≤ 8 * k.val + 7 then v.getLsbD (b - 8 * k.val) else (S[j]).getLsbD b := by
  rw [setByte_laneIndex]
  by_cases hj : j = i
  · subst hj
    simp [replaceLaneByte_getLsbD _ _ _ _ hb, Nat.lt_succ_iff]
  · have hne : i.val ≠ j.val := fun e => hj (Fin.ext e.symm)
    simp [Vector.getElem_set_ne, hj, hne]

/-- Settles O47: each clause is the lemma above for that view, reads by `byteAt_laneIndex`, writes by `setByte_laneIndex_getLsbD`
and `byteAt_set`. -/
theorem byteViewIsLaneView : Obligations.ByteViewIsLaneView := by
  refine ⟨fun S i => lane_toNat_eq_memRead S i _, fun S i k b hb => ?_,
    fun S i j k v b hb => setByte_laneIndex_getLsbD S i j k _ v b hb, fun S i v k => ?_⟩
  · rw [byteAt_laneIndex, laneByte_getLsbD, decide_eq_true hb, Bool.true_and]
  · rw [byteAt_set, laneByte_eq_ushiftRight]

end Sys2Proof.Machine
end

section
/-! When a command is answered BAD_INDEX (spec/30_encoding.md R52, R59): the check that refused it can be read off the new response. -/

namespace Sys2Proof.Machine

/-- Two responses added to equal lists of responses show their codes. -/
theorem State.code_eq_of_respond_eq {s t : State} {c c' : Code} {d d' : Byte} (hst : s.responses = t.responses)
    (h : s.respond c d = t.respond c' d') : c = c' := by
  have hresponses := congrArg State.responses h
  simp only [State.respond_responses, hst, List.append_cancel_left_eq, List.cons.injEq, Response.mk.injEq] at hresponses
  obtain ⟨⟨hcode, _⟩, _⟩ := hresponses
  exact hcode

/-- BAD_INDEX is answered exactly when the command passes the phase check and fails the range check (R52 stage 4). -/
theorem exec_eq_badIndex_iff (i : Instr) (s : State) :
    exec i s = .next (s.refuse .badIndex) ↔ legal i s.arch.phase = true ∧ inRange i s.arch.mode = false := by
  constructor
  · intro h
    rcases exec_next_cases h with ⟨_, hphase⟩ | ⟨hlegal, hrange, _⟩ | ⟨_, _, τ, d, _, hok⟩
    · exact nomatch State.code_eq_of_respond_eq rfl hphase
    · exact ⟨hlegal, hrange⟩
    · exact nomatch State.code_eq_of_respond_eq (s := s) (t := s.withArch τ) rfl hok
  · rintro ⟨hlegal, hrange⟩
    exact exec_badIndex hlegal hrange

/-- Settles O22: by `exec_eq_badIndex_iff` the table is that of `legal` and `inRange`, command by command. -/
theorem indexRanges : Obligations.IndexRanges := by
  intro i s
  rw [exec_eq_badIndex_iff]
  cases i with
  | rdsr a | ldb a | rdd a | stb a d | iota a | round a => simp [legal, inRange]
  | nop | clr | init m | absb d | final | theta | rhopi | chi | perm => simp [inRange]

end Sys2Proof.Machine
end

section
/-! The word of a command (spec/30_encoding.md R55) and the refusal of its reserved bits (R56, R57 (b)), for any row
of the opcode map. -/

namespace Sys2Proof.Machine

/-- A word of format A or Z, laid out by shifts: `(op << 24) | (a << 16)` (R55). -/
theorem assembleWord_noData (op a : Byte) :
    assembleWord op a 0x00#8 = (op.setWidth 32 <<< 24) ||| (a.setWidth 32 <<< 16) := by
  have hop : op.toNat <<< 24 < 2 ^ 32 := by rw [Nat.shiftLeft_eq]; omega
  have ha : a.toNat <<< 16 < 2 ^ 32 := by rw [Nat.shiftLeft_eq]; omega
  apply BitVec.eq_of_toNat_eq
  rw [assembleWord, BitVec.toNat_append, BitVec.toNat_append, BitVec.toNat_append, BitVec.toNat_or, BitVec.toNat_shiftLeft,
    BitVec.toNat_shiftLeft, BitVec.toNat_setWidth_of_le (by decide), BitVec.toNat_setWidth_of_le (by decide),
    Nat.mod_eq_of_lt hop, Nat.mod_eq_of_lt ha]
  simp [Nat.shiftLeft_or_distrib, ← Nat.shiftLeft_add]

/-- A word whose opcode is assigned and that has a must-be-zero bit of its format set is a reserved-field word (R56, R57 (b)). -/
theorem decode_eq_reservedField {w : Word} {f : Format} {build : Byte → Byte → Instr}
    (hmap : opcodeMap (opField w) = some (f, build)) (hbits : w &&& mbz f ≠ 0#32) : decode w = .reservedField := by
  simp only [decode, hmap, if_neg hbits]

/-- The step refuses every word of an assigned opcode with a must-be-zero bit set (R57 (b)). -/
theorem reservedBitsRefused_of_opcodeMap {op : Byte} {f : Format} {build : Byte → Byte → Instr}
    (hmap : opcodeMap op = some (f, build)) : ReservedBitsRefused op (mbz f) := by
  intro s w es hinputs hop hbits
  subst hop
  exact step_reservedField hinputs (decode_eq_reservedField hmap hbits)

end Sys2Proof.Machine
end

section
/-! The commands that run in phase IDLE only (spec/42_variants_control.md R120): refused in the other phases and for an index
out of range, otherwise new lanes and the acknowledgement, control registers kept (spec/40_permutation.md R80, R87). -/

namespace Sys2Proof.Machine

/-- The command is legal in phase IDLE and in no other phase (R120). -/
def IdleOnly (i : Instr) : Prop := ∀ p, legal i p = (p == .idle)

variable {i : Instr} {s : State}

/-- In phase IDLE the command passes the phase check. -/
theorem IdleOnly.legal_of_idle (hi : IdleOnly i) (hphase : s.arch.phase = .idle) : legal i s.arch.phase = true := by
  rw [hi, hphase]; rfl

/-- In the other phases it is refused with BAD_PHASE, whatever its index (R133). -/
theorem IdleOnly.refusedWith_badPhase (hi : IdleOnly i) (hphase : s.arch.phase ≠ .idle) : RefusedWith i s .badPhase :=
  exec_badPhase (by rw [hi]; exact beq_false_of_ne hphase)

/-- In phase IDLE an index out of range is refused with BAD_INDEX (R59). -/
theorem IdleOnly.refusedWith_badIndex (hi : IdleOnly i) (hphase : s.arch.phase = .idle)
    (hrange : inRange i s.arch.mode = false) : RefusedWith i s .badIndex :=
  exec_badIndex (hi.legal_of_idle hphase) hrange

/-- In phase IDLE with the index in range, a command whose effect is to write the lanes `S` and acknowledge does just that. -/
theorem IdleOnly.writes_lanes {S : Lanes} {body : inRange i s.arch.mode = true → Host.Outcome State Fault Refusal}
    (hi : IdleOnly i) (hphase : s.arch.phase = .idle) (hrange : inRange i s.arch.mode = true)
    (hexec : exec i s = checked i s body) (hbody : body hrange = .next (s.withLanes S).acknowledge) :
    ∃ t, exec i s = .next t ∧ Answered s t 0x00#8 ∧ ControlKept s t ∧ t.arch.lanes = S := by
  refine ⟨(s.withLanes S).acknowledge, ?_, answered_acknowledge_withLanes s S, controlKept_acknowledge_withLanes s S, rfl⟩
  rw [hexec, checked_passed (hi.legal_of_idle hphase) hrange, hbody]

theorem idleOnly_theta : IdleOnly .theta := fun _ => rfl
theorem idleOnly_rhopi : IdleOnly .rhopi := fun _ => rfl
theorem idleOnly_chi : IdleOnly .chi := fun _ => rfl
theorem idleOnly_iota (a : Byte) : IdleOnly (.iota a) := fun _ => rfl
theorem idleOnly_round (a : Byte) : IdleOnly (.round a) := fun _ => rfl
theorem idleOnly_perm : IdleOnly .perm := fun _ => rfl

end Sys2Proof.Machine
end

section
/-! The lane rotation (spec/40_permutation.md R70). -/

namespace Sys2Proof.Machine

/-- The model's rotation is the library's, for every amount. -/
theorem rotl64_eq_rotateLeft (v : Lane) (n : Nat) : rotl64 v n = v.rotateLeft n := rfl

/-- In R70's range the amount is not reduced. -/
theorem rotl64_eq_shifts (v : Lane) {n : Nat} (hn : n < 64) : rotl64 v n = (v <<< n) ||| (v >>> (64 - n)) := by
  rw [rotl64, Nat.mod_eq_of_lt hn]

/-- Bit `i` moves to `(i + n) mod 64`: it stays below bit 64, or it leaves at the top and comes in again at the bottom. -/
theorem rotl64_getLsbD_add_mod (v : Lane) {n i : Nat} (hn : n < 64) (hi : i < 64) :
    (rotl64 v n).getLsbD ((i + n) % 64) = v.getLsbD i := by
  rw [rotl64_eq_rotateLeft, BitVec.getLsbD_rotateLeft, Nat.mod_eq_of_lt hn]
  by_cases hstay : i + n < 64
  · have hlow : ¬ i + n < n := by omega
    rw [Nat.mod_eq_of_lt hstay]
    simp [hstay, hlow]
  · have hwrap : (i + n) % 64 = i + n - 64 := by omega
    have hlow : i + n - 64 < n := by omega
    have hsource : 64 - n + (i + n - 64) = i := by omega
    simp [hwrap, hlow, hsource]

/-- Settles O44: an amount of R70's range is not reduced, and `rotl64_getLsbD_add_mod` follows each bit. -/
theorem rotationMovesBits : Obligations.RotationMovesBits := by
  intro v n _ hmax
  have hn : n < 64 := by omega
  exact ⟨rotl64_eq_shifts v hn, fun i hi => rotl64_getLsbD_add_mod v hn hi⟩

end Sys2Proof.Machine
end

section
/-! The four step commands THETA, RHOPI, CHI and IOTA (spec/40_permutation.md R81 to R84). -/

namespace Sys2Proof.Machine

/-- The parity of column `x` is over the lanes `x`, `x + 5` .. `x + 20` (R71, R11). -/
theorem columnParities_getElem (S : Lanes) (x : Fin 5) :
    (columnParities S)[x] = S[x.val] ^^^ S[x.val + 5] ^^^ S[x.val + 10] ^^^ S[x.val + 15] ^^^ S[x.val + 20] :=
  tabulateColumns_getElem _ x

/-- Settles O34: the lanes by `laneAt_theta`, with the column parities as `C`. -/
theorem thetaRule : Obligations.ThetaRule := by
  refine ⟨rfl, reservedBitsRefused_of_opcodeMap (f := .z) rfl, fun s => idleOnly_theta.refusedWith_badPhase,
    fun s hphase => ?_⟩
  obtain ⟨t, hexec, hanswered, hkept, hlanes⟩ := idleOnly_theta.writes_lanes hphase rfl (exec_theta s) rfl
  refine ⟨t, fun x => (columnParities s.arch.lanes)[x], hexec, hanswered, hkept, columnParities_getElem _, fun x y => ?_⟩
  rw [hlanes]
  exact laneAt_theta s.arch.lanes x y

/-- Settles O35: RHOPI writes the lanes `rhopi` gives. -/
theorem rhopiRule : Obligations.RhopiRule :=
  ⟨rfl, reservedBitsRefused_of_opcodeMap (f := .z) rfl, fun _ => idleOnly_rhopi.refusedWith_badPhase,
    fun s hphase => idleOnly_rhopi.writes_lanes hphase rfl (exec_rhopi s) rfl⟩

/-- Settles O38: the lanes by `laneAt_chi`. -/
theorem chiRule : Obligations.ChiRule := by
  refine ⟨rfl, reservedBitsRefused_of_opcodeMap (f := .z) rfl, fun s => idleOnly_chi.refusedWith_badPhase,
    fun s hphase => ?_⟩
  obtain ⟨t, hexec, hanswered, hkept, hlanes⟩ := idleOnly_chi.writes_lanes hphase rfl (exec_chi s) rfl
  refine ⟨t, hexec, hanswered, hkept, fun x y => ?_⟩
  rw [hlanes]
  exact laneAt_chi s.arch.lanes x y

/-- Settles O39: lane 0 and the other lanes by `getElem_iota`; the range of the index is `inRange`. -/
theorem iotaRule : Obligations.IotaRule := by
  refine ⟨assembleWord_noData 0x33#8, reservedBitsRefused_of_opcodeMap (f := .a) rfl,
    fun a s => (idleOnly_iota a).refusedWith_badPhase,
    fun a s hphase ha => (idleOnly_iota a).refusedWith_badIndex hphase (decide_eq_false (Nat.not_lt.mpr ha)),
    fun a s ha hphase => ?_⟩
  obtain ⟨t, hexec, hanswered, hkept, hlanes⟩ :=
    (idleOnly_iota a).writes_lanes hphase (decide_eq_true ha) (exec_iota a s) rfl
  refine ⟨t, hexec, hanswered, hkept, ?_, fun i hi => ?_⟩
  · rw [hlanes]
    exact getElem_iota s.arch.lanes ⟨a.toNat, ha⟩ 0
  · rw [hlanes, getElem_iota, if_neg hi]

end Sys2Proof.Machine
end

section
/-! Whole rounds: ROUND and PERM (spec/40_permutation.md R85, R86). -/

namespace Sys2Proof.Machine

/-- Settles O40: ROUND writes the lanes `round` gives, which is the composition of the four steps (R78). -/
theorem roundRule : Obligations.RoundRule :=
  ⟨assembleWord_noData 0x34#8, reservedBitsRefused_of_opcodeMap (f := .a) rfl,
    fun a _ => (idleOnly_round a).refusedWith_badPhase,
    fun a _ hphase ha => (idleOnly_round a).refusedWith_badIndex hphase (decide_eq_false (Nat.not_lt.mpr ha)),
    fun a s ha hphase => (idleOnly_round a).writes_lanes hphase (decide_eq_true ha) (exec_round a s) rfl⟩

/-- The lanes after the rounds `0` .. `k - 1` of `keccak_f` (R79). -/
def lanesAfterRounds (S : Lanes) (k : Nat) : Lanes := ((List.finRange 24).take k).foldl round S

@[simp] theorem lanesAfterRounds_zero (S : Lanes) : lanesAfterRounds S 0 = S := rfl

/-- One round more is that round applied to the lanes so far (R79). -/
theorem lanesAfterRounds_succ (S : Lanes) (ir : Fin 24) :
    lanesAfterRounds S (ir.val + 1) = round (lanesAfterRounds S ir.val) ir := by
  have hround : (List.finRange 24)[ir.val]? = some ir := by simp
  rw [lanesAfterRounds, List.take_add_one, hround, Option.toList_some, List.foldl_concat, lanesAfterRounds]

/-- All 24 rounds are `keccak_f` (R79). -/
theorem lanesAfterRounds_all (S : Lanes) : lanesAfterRounds S 24 = keccakF S := by
  have hall : (List.finRange 24).take 24 = List.finRange 24 := List.take_of_length_le (by simp)
  rw [lanesAfterRounds, hall]
  rfl

/-- Settles O41: the 25 states are `lanesAfterRounds`, from the lanes before to `keccak_f` of them. -/
theorem permRule : Obligations.PermRule := by
  refine ⟨rfl, reservedBitsRefused_of_opcodeMap (f := .z) rfl, fun s => idleOnly_perm.refusedWith_badPhase,
    fun s hphase => ?_⟩
  obtain ⟨t, hexec, hanswered, hkept, hlanes⟩ := idleOnly_perm.writes_lanes hphase rfl (exec_perm s) rfl
  refine ⟨t, fun k => lanesAfterRounds s.arch.lanes k.val, hexec, hanswered, hkept, lanesAfterRounds_zero _,
    lanesAfterRounds_succ _, ?_⟩
  rw [hlanes]
  exact (lanesAfterRounds_all _).symm

end Sys2Proof.Machine
end

section
/-! The word of a command with a data operand (spec/30_encoding.md R53, R55). -/

namespace Sys2Proof.Machine

/-- The data field is the low byte of the word, over a word without data (R53). -/
theorem assembleWord_eq_or_data (op a d : Byte) : assembleWord op a d = assembleWord op a 0x00#8 ||| d.setWidth 32 := by
  apply BitVec.eq_of_getLsbD_eq
  intro i hi
  simp only [assembleWord, BitVec.getLsbD_or, BitVec.getLsbD_append, BitVec.getLsbD_setWidth, hi, decide_true, Bool.true_and]
  by_cases hdata : i < 8
  · simp [hdata]
  · have habove : d.getLsbD i = false := BitVec.getLsbD_of_ge _ _ (by omega)
    simp [hdata, habove]

end Sys2Proof.Machine
end

section
/-! The sponge commands ABSB, FINAL and RDD (spec/41_sponge.md R95 to R97): inside the block `absorb_byte` and `pad` have a
result, so each command ends with its response; which bytes the XORs change is read off the byte view. -/

namespace Sys2Proof.Machine

variable {s : State}

/-- An XOR into byte `k`, seen at every byte: `v` there and nothing elsewhere. -/
theorem byteAt_xorByte_eq_xor (S : Lanes) (k l : Fin 200) (v : Byte) :
    byteAt (xorByte S k v) l = byteAt S l ^^^ if l.val = k.val then v else 0x00#8 := by
  rw [byteAt_xorByte]
  by_cases hl : l = k
  · rw [if_pos hl, if_pos (congrArg Fin.val hl), hl]
  · rw [if_neg hl, if_neg (fun e => hl (Fin.ext e)), BitVec.xor_zero]

/-- A cursor below the rate is a byte index (R90, R111). -/
theorem cursor_in_block {c : Nat} {m : BitVec 2} (hc : c < rate m) : c < rate m ∧ rate m ≤ 200 := by
  have hrate := (rate_bounds m).2
  omega

/-- ABSB in phase ABSORB writes the lanes and the cursor that `absorb_byte` gives, and acknowledges (R95). -/
theorem exec_absb_eq_next {d : Byte} {S : Lanes} {c : Nat} (hphase : s.arch.phase = .absorb)
    (habsorb : absorbByte s.arch.lanes s.arch.cursor.toNat d (rate s.arch.mode) = some (S, c)) :
    exec (.absb d) s = .next (s.withArch { s.arch with lanes := S, cursor := BitVec.ofNat 8 c }).acknowledge := by
  have hlegal : legal (.absb d) s.arch.phase = true := beq_of_eq hphase
  rw [exec_absb, checked_passed hlegal rfl]
  simp only [habsorb]

/-- FINAL in phase ABSORB permutes the lanes that `pad` gives, enters DONE and acknowledges (R96). -/
theorem exec_final_eq_next {S : Lanes} (hphase : s.arch.phase = .absorb)
    (hpad : pad s.arch.lanes s.arch.cursor.toNat Config.domainByte (rate s.arch.mode) = some S) :
    exec .final s = .next (s.withArch { s.arch with lanes := keccakF S, phase := .done }).acknowledge := by
  have hlegal : legal .final s.arch.phase = true := beq_of_eq hphase
  rw [exec_final, checked_passed hlegal rfl]
  simp only [hpad]

/-- RDD in phase DONE with an index inside the digest answers that byte (R97). -/
theorem exec_rdd_eq_next {a : Byte} (hphase : s.arch.phase = .done) (ha : a.toNat < outLen s.arch.mode) :
    exec (.rdd a) s = .next (s.answer (byteAt s.arch.lanes ⟨a.toNat, byteIndex_of_outLen ha⟩)) := by
  have hlegal : legal (.rdd a) s.arch.phase = true := beq_of_eq hphase
  have hrange : inRange (.rdd a) s.arch.mode = true := decide_eq_true ha
  rw [exec_rdd, checked_passed hlegal hrange]

/-- Settles O31: `absorb_byte` either fills the block, and then permutes, or advances the cursor, which fits its byte. -/
theorem absbRule : Obligations.AbsbRule := by
  refine ⟨fun d => assembleWord_eq_or_data 0x10#8 0x00#8 d, reservedBitsRefused_of_opcodeMap (f := .d) rfl,
    fun d s hphase => exec_badPhase (beq_false_of_ne hphase), fun d s hphase hcursor => ?_⟩
  have hblock := cursor_in_block hcursor
  have habsorb := absorbByte_eq (S := s.arch.lanes) (b := d) hblock
  have hbytes : ∀ k, byteAt (xorByte s.arch.lanes ⟨s.arch.cursor.toNat, by omega⟩ d) k =
      if k.val = s.arch.cursor.toNat then byteAt s.arch.lanes k ^^^ d else byteAt s.arch.lanes k := fun k => by
    rw [byteAt_xorByte_eq_xor]
    split
    · rfl
    · exact BitVec.xor_zero
  by_cases hfull : s.arch.cursor.toNat + 1 = rate s.arch.mode
  · rw [if_pos hfull] at habsorb
    exact ⟨_, _, exec_absb_eq_next hphase habsorb, answered_acknowledge_withArch _ _, rfl, hphase, rfl, hbytes,
      fun hroom => absurd hfull (Nat.ne_of_lt hroom), fun _ => ⟨rfl, rfl⟩⟩
  · rw [if_neg hfull] at habsorb
    have hfits : s.arch.cursor.toNat + 1 < 2 ^ 8 := by omega
    exact ⟨_, _, exec_absb_eq_next hphase habsorb, answered_acknowledge_withArch _ _, rfl, hphase, rfl, hbytes,
      fun _ => ⟨rfl, (BitVec.toNat_ofNat _ _).trans (Nat.mod_eq_of_lt hfits)⟩, fun hroom => absurd hroom hfull⟩

/-- Settles O32: the padded lanes are two XORs, one on the other, so the byte hit by both takes both (R93). -/
theorem finalRule : Obligations.FinalRule := by
  refine ⟨rfl, reservedBitsRefused_of_opcodeMap (f := .z) rfl, fun s hphase => exec_badPhase (beq_false_of_ne hphase),
    fun s hphase hcursor => ?_⟩
  have hpad := pad_eq (S := s.arch.lanes) (b := Config.domainByte) (cursor_in_block hcursor)
  refine ⟨_, _, exec_final_eq_next hphase hpad, answered_acknowledge_withArch _ _, fun k => ?_, rfl, rfl, rfl, rfl, rfl⟩
  rw [byteAt_xorByte_eq_xor, byteAt_xorByte_eq_xor]
  rfl

/-- Settles O33: the range of the index is `inRange`, the digest length of MODE. -/
theorem rddRule : Obligations.RddRule := by
  refine ⟨fun a => assembleWord_noData 0x12#8 a, reservedBitsRefused_of_opcodeMap (f := .a) rfl,
    fun a s hphase => exec_badPhase (beq_false_of_ne hphase), fun a s hphase ha => ?_, fun a s _ hphase ha => ?_⟩
  · have hlegal : legal (.rdd a) s.arch.phase = true := beq_of_eq hphase
    exact exec_badIndex hlegal (decide_eq_false (Nat.not_lt.mpr ha))
  · exact ⟨_, exec_rdd_eq_next hphase ha, rfl, rfl, rfl⟩

end Sys2Proof.Machine
end

section
/-! When a command is answered BAD_PHASE (spec/42_variants_control.md R120; spec/30_encoding.md R52 stage 3). -/

namespace Sys2Proof.Machine

/-- BAD_PHASE is answered exactly when the phase check fails, whatever the index (R52 stage 3, R133). -/
theorem exec_eq_badPhase_iff (i : Instr) (s : State) :
    exec i s = .next (s.refuse .badPhase) ↔ legal i s.arch.phase = false := by
  refine ⟨fun h => ?_, exec_badPhase⟩
  rcases exec_next_cases h with ⟨hlegal, _⟩ | ⟨_, _, hindex⟩ | ⟨_, _, τ, d, _, hok⟩
  · exact hlegal
  · exact nomatch State.code_eq_of_respond_eq rfl hindex
  · exact nomatch State.code_eq_of_respond_eq (s := s) (t := s.withArch τ) rfl hok

/-- Settles O21: by `exec_eq_badPhase_iff` the table is that of `legal`: the rows no phase refuses, then the others phase by phase. -/
theorem legalityTable : Obligations.LegalityTable := by
  intro i s
  rw [exec_eq_badPhase_iff]
  cases i with
  | nop | clr | init m | rdsr a | ldb a => simp [legal]
  | absb d | final | rdd a | stb a d | theta | rhopi | chi | iota a | round a | perm =>
    cases s.arch.phase <;> simp [legal]

end Sys2Proof.Machine
end

section
/-! The control commands NOP, CLR, INIT and RDSR (spec/42_variants_control.md R112 to R115), which no phase refuses. -/

namespace Sys2Proof.Machine

/-- NOP acknowledges in every state (R114). -/
theorem exec_nop_eq_next (s : State) : exec .nop s = .next s.acknowledge := by
  rw [exec_nop, checked_passed rfl rfl]

/-- INIT m writes the whole architectural state, whatever it was, and acknowledges (R112). -/
theorem exec_init_eq_next (m : BitVec 2) (s : State) : exec (.init m) s =
    .next (s.withArch { lanes := zeroLanes, mode := m, phase := .absorb, cursor := 0#8 }).acknowledge := by
  rw [exec_init, checked_passed rfl rfl]

/-- RDSR a with an index in range answers byte `a` of STATUS (R115). -/
theorem exec_rdsr_eq_next {a : Byte} (ha : a.toNat < 2) (s : State) :
    exec (.rdsr a) s = .next (s.answer (statusByte s.arch ⟨a.toNat, ha⟩)) := by
  have hrange : inRange (.rdsr a) s.arch.mode = true := decide_eq_true ha
  rw [exec_rdsr, checked_passed rfl hrange]

/-- The low byte of STATUS is CURSOR (R15). -/
theorem statusByte_zero (σ : Arch) : statusByte σ 0 = σ.cursor := by
  rw [statusByte, statusWord]
  exact BitVec.extractLsb'_append_eq_right

/-- The high byte of STATUS is `{0b0000, PHASE, MODE}` (R15). -/
theorem statusByte_one (σ : Arch) : statusByte σ 1 = 0#4 ++ phaseBits σ.phase ++ σ.mode := by
  rw [statusByte, statusWord]
  exact BitVec.extractLsb'_append_eq_left

/-- RDSR 0 answers CURSOR (R115). -/
theorem exec_rdsr_zero (s : State) : exec (.rdsr 0#8) s = .next (s.answer s.arch.cursor) := by
  rw [← statusByte_zero]
  exact exec_rdsr_eq_next (by decide) s

/-- RDSR 1 answers `{0b0000, PHASE, MODE}` (R115). -/
theorem exec_rdsr_one (s : State) :
    exec (.rdsr 1#8) s = .next (s.answer (0#4 ++ phaseBits s.arch.phase ++ s.arch.mode)) := by
  rw [← statusByte_one]
  exact exec_rdsr_eq_next (by decide) s

/-- The index field of INIT's word is the mode, zero-extended (R54, R55). -/
theorem setWidth_aOperand_init (m : BitVec 2) : (aOperand (.init m)).setWidth 32 = m.setWidth 32 := by
  revert m; decide

/-- Settles O25: NOP is an acknowledgement and nothing else. -/
theorem nopRule : Obligations.NopRule :=
  ⟨rfl, reservedBitsRefused_of_opcodeMap (f := .z) rfl, fun s => ⟨_, exec_nop_eq_next s, rfl, rfl, rfl⟩⟩

/-- Settles O26: the reset values but for MODE by `exec_clr_eq_next`; the reset lanes are `zeroLanes`. -/
theorem clrRule : Obligations.ClrRule := by
  refine ⟨rfl, reservedBitsRefused_of_opcodeMap (f := .z) rfl, fun s => ?_⟩
  exact ⟨_, exec_clr_eq_next s, answered_acknowledge_withArch _ _, fun i => zeroLanes_getElem i.val i.isLt,
    rfl, rfl, rfl, rfl, rfl⟩

/-- Settles O27: the word has the mode as its index field; the new state is the one `exec_init_eq_next` writes. -/
theorem initRule : Obligations.InitRule := by
  refine ⟨fun m => ?_, reservedBitsRefused_of_opcodeMap (f := .m) rfl, fun m s => ?_⟩
  · rw [← setWidth_aOperand_init]
    exact assembleWord_noData 0x02#8 (aOperand (.init m))
  · exact ⟨_, exec_init_eq_next m s, answered_acknowledge_withArch _ _, fun i => zeroLanes_getElem i.val i.isLt,
      rfl, rfl, rfl, rfl⟩

/-- Settles O28: the answers by `exec_rdsr_zero` and `exec_rdsr_one`; the range of the index is `inRange`. -/
theorem rdsrRule : Obligations.RdsrRule :=
  ⟨assembleWord_noData 0x03#8, reservedBitsRefused_of_opcodeMap (f := .a) rfl,
    fun s => ⟨_, exec_rdsr_zero s, rfl, rfl, rfl⟩, fun s => ⟨_, exec_rdsr_one s, rfl, rfl, rfl⟩,
    fun _ _ ha => exec_badIndex rfl (decide_eq_false (Nat.not_lt.mpr ha))⟩

end Sys2Proof.Machine
end

section
/-! Raw byte access: LDB and STB (spec/42_variants_control.md R116, R117). -/

namespace Sys2Proof.Machine

/-- Byte `k` is lane `k div 8` shifted down by its `8 * (k mod 8)` lower bits and cut to eight (R30). -/
theorem byteAt_eq_ushiftRight (S : Lanes) (k : Fin 200) :
    byteAt S k = (S[k.val / 8] >>> (8 * (k.val % 8))).setWidth 8 :=
  laneByte_eq_ushiftRight _ _

/-- LDB a with an index in range answers that byte in every phase (R116). -/
theorem exec_ldb_eq_next {a : Byte} (ha : a.toNat < 200) (s : State) :
    exec (.ldb a) s = .next (s.answer (byteAt s.arch.lanes ⟨a.toNat, ha⟩)) := by
  have hrange : inRange (.ldb a) s.arch.mode = true := decide_eq_true ha
  rw [exec_ldb, checked_passed rfl hrange]

theorem idleOnly_stb (a d : Byte) : IdleOnly (.stb a d) := fun _ => rfl

/-- The word of STB has both operands: the index over the opcode, the data in the low byte (R55). -/
theorem encode_stb (a d : Byte) :
    encode (.stb a d) = 0x21000000#32 ||| (a.setWidth 32 <<< 16) ||| d.setWidth 32 :=
  calc assembleWord 0x21#8 a d
      = assembleWord 0x21#8 a 0x00#8 ||| d.setWidth 32 := assembleWord_eq_or_data _ _ _
    _ = 0x21000000#32 ||| (a.setWidth 32 <<< 16) ||| d.setWidth 32 := by rw [assembleWord_noData]; rfl

/-- Settles O29: the byte answered is the lane's, by `byteAt_eq_ushiftRight`; the range of the index is `inRange`. -/
theorem ldbRule : Obligations.LdbRule := by
  refine ⟨assembleWord_noData 0x20#8, reservedBitsRefused_of_opcodeMap (f := .a) rfl, fun a s ha => ?_,
    fun a s ha => exec_badIndex rfl (decide_eq_false (Nat.not_lt.mpr ha))⟩
  rw [exec_ldb_eq_next ha, byteAt_eq_ushiftRight]
  exact ⟨_, rfl, rfl, rfl, rfl⟩

/-- Settles O30: STB writes the lanes of `setByte`, which reads back `d` at the index and the old byte elsewhere. -/
theorem stbRule : Obligations.StbRule := by
  refine ⟨encode_stb, reservedBitsRefused_of_opcodeMap (f := .ad) rfl,
    fun a d s => (idleOnly_stb a d).refusedWith_badPhase,
    fun a d s hphase ha => (idleOnly_stb a d).refusedWith_badIndex hphase (decide_eq_false (Nat.not_lt.mpr ha)),
    fun a d s ha hphase => ?_⟩
  obtain ⟨t, hexec, hanswered, hkept, hlanes⟩ :=
    (idleOnly_stb a d).writes_lanes hphase (decide_eq_true ha) (exec_stb a d s) rfl
  refine ⟨t, hexec, hanswered, hkept, ?_, fun k hk => ?_⟩
  · rw [hlanes, byteAt_setByte_self]
  · rw [hlanes, byteAt_setByte_ne _ _ _ fun hsame => hk (congrArg Fin.val hsame)]

end Sys2Proof.Machine
end


section
/-! What a step reports (spec/60_exceptions.md R131, R133; spec/30_encoding.md R52): the response a step adds is one only, so its
code is that of the check the word failed first. -/

namespace Sys2Proof.Machine

/-- Settles O9: without an event `step` holds the state. -/
theorem idleBlockHoldsState : Obligations.IdleBlockHoldsState := fun _ => step_no_event

/-- The response added to the same list is the same. -/
theorem response_unique {rs us : List Response} {r r' : Response} (h : us = rs ++ [r]) (h' : us = rs ++ [r']) : r = r' :=
  List.singleton_injective (List.append_cancel_left (h.symm.trans h'))

/-- Settles O20: a step that takes a word refuses it, which answers `0x00` and keeps the rest, or executes it, which
answers OK. -/
theorem refusalChangesNothing : Obligations.RefusalChangesNothing := by
  intro s t w es c d hinputs hstep hresponse hrefused
  cases step_cases hstep with
  | idle hnone => exact nomatch hinputs.symm.trans hnone
  | reset e _ he hreset =>
    obtain ⟨rfl, _⟩ := List.cons.inj (hinputs.symm.trans hreset)
    simp at he
  | executed _ _ _ τ b _ _ _ _ _ ht =>
    subst ht
    obtain ⟨hok, _⟩ := Response.mk.inj (response_unique hresponse (State.answer_responses _ b))
    exact absurd hok hrefused
  | refused _ es' c' hword _ ht =>
    subst ht
    obtain ⟨_, rfl⟩ := List.cons.inj (hinputs.symm.trans hword)
    obtain ⟨_, hdata⟩ := Response.mk.inj (response_unique hresponse (State.refuse_responses _ c'))
    exact ⟨rfl, rfl, hdata⟩

/-- A step known to respond with a code reports that code, whatever architectural state it leaves. -/
theorem code_of_step_responds {s t u : State} {c : Code} {d : Byte} {r : Response} (hstep : step s = .next t)
    (hresponse : t.responses = s.responses ++ [r]) (hresponds : step s = .next (u.respond c d))
    (hu : u.responses = s.responses) : r.code = c := by
  cases hstep.symm.trans hresponds
  rw [State.respond_responses, hu] at hresponse
  exact congrArg Response.code (response_unique hresponse rfl)

/-- Settles O23: each clause names the first check the word fails, and `step` answers that check's refusal; a command that fails
none answers OK. -/
theorem lowestCodeIsReported : Obligations.LowestCodeIsReported := by
  intro s t w es r hinputs hstep hresponse
  have hcode {u : State} {c : Code} {d : Byte} := code_of_step_responds (u := u) (c := c) (d := d) hstep hresponse
  refine ⟨fun hd => hcode (step_illegalOpcode hinputs hd) rfl, fun hd => hcode (step_reservedField hinputs hd) rfl,
    fun i hd => ?_⟩
  have hexec := step_command hinputs hd
  refine ⟨fun hphase => ?_, fun hphase hrange => ?_, fun hphase hrange => ?_⟩
  · exact hcode (hexec.trans (exec_badPhase hphase)) rfl
  · exact hcode (hexec.trans (exec_badIndex hphase hrange)) rfl
  · obtain ⟨τ, d, _, rfl⟩ := exec_passed (s := s.withInputs es) hphase hrange (hexec.symm.trans hstep)
    exact hcode (u := (s.withInputs es).withArch τ) hstep rfl

end Sys2Proof.Machine
end


section
/-! Reset (spec/70_reset_and_hazards.md R150): an event of its own, it leaves R23's reset values from any state and gives no
response. -/

namespace Sys2Proof.Machine

/-- Settles O10: `step` takes the event and resets the block (`step_reset`); the architectural state it leaves is that of
`State.reset`, whose values are R23's (`resetValues`). -/
theorem resetFromAnyState : Obligations.ResetFromAnyState := by
  intro s es hinputs
  obtain ⟨hlanes, _, hmode, hphase, hcursor, _⟩ := resetValues
  exact ⟨(s.withInputs es).resetBlock, step_reset hinputs, hlanes, hmode, hphase, hcursor, rfl, rfl⟩

end Sys2Proof.Machine
end

section
/-! The opcode map read in both directions (spec/30_encoding.md R54 to R57): the row of a command, and the commands of a row. -/

namespace Sys2Proof

/-- The word of every command agrees with its own row (R54). -/
theorem encode_and_rowMask : ∀ i : Instr, encode i &&& rowMask i = rowMatch i
  | .nop => Laws.RowMatch.nop
  | .clr => Laws.RowMatch.clr
  | .init m => Laws.RowMatch.init m
  | .rdsr a => Laws.RowMatch.rdsr a
  | .absb d => Laws.RowMatch.absb d
  | .final => Laws.RowMatch.final
  | .rdd a => Laws.RowMatch.rdd a
  | .ldb a => Laws.RowMatch.ldb a
  | .stb a d => Laws.RowMatch.stb a d
  | .theta => Laws.RowMatch.theta
  | .rhopi => Laws.RowMatch.rhopi
  | .chi => Laws.RowMatch.chi
  | .iota a => Laws.RowMatch.iota a
  | .round a => Laws.RowMatch.round a
  | .perm => Laws.RowMatch.perm

/-- The must-be-zero bits of a command's word are zero (R54, R55). -/
theorem encode_and_mbz (i : Instr) : encode i &&& mbz (formatOf i) = 0#32 :=
  ((and_mask_eq_match _ _ _).mp (encode_and_rowMask i)).2

/-- The mode is the low two bits of INIT's index field (R54). -/
theorem mOfA_append (m : BitVec 2) : mOfA (0#6 ++ m) = m := BitVec.extractLsb'_append_eq_right

/-- An index field with no must-be-zero bit of format M set is a zero-extended mode (R54). -/
theorem append_mOfA {a : Byte} (h : a &&& 0xFC#8 = 0#8) : 0#6 ++ mOfA a = a := by
  revert a; decide

/-- The opcode map has a row for every command: its format, and the command made of its operands (R55). -/
theorem opcodeMap_opcodeOf (i : Instr) :
    ∃ build, opcodeMap (opcodeOf i) = some (formatOf i, build) ∧ build (aOperand i) (dOperand i) = i := by
  cases i with
  | init m => exact ⟨_, rfl, congrArg Instr.init (mOfA_append m)⟩
  | nop | clr | rdsr a | absb d | final | rdd a | ldb a | stb a d | theta | rhopi | chi | iota a | round a | perm =>
    exact ⟨_, rfl, rfl⟩

variable {op : Byte} {f : Format} {build : Byte → Byte → Instr}

/-- A row of the opcode map makes commands of its own opcode and format (R55). -/
theorem opcodeOf_formatOf_of_opcodeMap (h : opcodeMap op = some (f, build)) (a d : Byte) :
    opcodeOf (build a d) = op ∧ formatOf (build a d) = f := by
  unfold opcodeMap at h
  split at h <;> cases h <;> exact ⟨rfl, rfl⟩

/-- A row keeps each field as an operand, but for fields its format requires to be zero (R54, R55). -/
theorem operands_of_opcodeMap {a z d : Byte} (h : opcodeMap op = some (f, build))
    (hzero : (op ++ a ++ z ++ d : BitVec 32) &&& mbz f = 0#32) :
    aOperand (build a d) = a ∧ 0#8 = z ∧ dOperand (build a d) = d := by
  rw [append_and_mbz] at hzero
  unfold opcodeMap at h
  split at h <;> cases h <;> simp only at hzero
  case h_3 =>
    obtain ⟨hmode, hz, hd⟩ := hzero
    exact ⟨append_mOfA hmode, hz.symm, hd.symm⟩
  all_goals simp_all [aOperand, dOperand]

/-- What decodes to a command: an assigned opcode, no must-be-zero bit set, and the row's command of the two fields (R56). -/
theorem decode_eq_command_iff {w : Word} {i : Instr} : decode w = .command i ↔
    ∃ f build, opcodeMap (opField w) = some (f, build) ∧ w &&& mbz f = 0#32 ∧ build (aField w) (dField w) = i := by
  unfold decode
  split
  · next hmap => simp [hmap]
  · next f build hmap =>
    simp only [hmap, Option.some.injEq, Prod.mk.injEq]
    split <;> simp_all

/-- A word decodes to an illegal opcode exactly when the opcode map has no row for its opcode (R57 (a)). -/
theorem decode_eq_illegalOpcode_iff {w : Word} : decode w = .illegalOpcode ↔ opcodeMap (opField w) = none := by
  unfold decode
  split
  · next hmap => simp [hmap]
  · next hmap =>
    simp only [hmap, reduceCtorEq, iff_false]
    split <;> simp

/-- A word decodes to a reserved field exactly when a row's must-be-zero bit is set in it (R57 (b)). -/
theorem decode_eq_reservedField_iff {w : Word} : decode w = .reservedField ↔
    ∃ f build, opcodeMap (opField w) = some (f, build) ∧ w &&& mbz f ≠ 0#32 := by
  unfold decode
  split
  · next hmap => simp [hmap]
  · next hmap =>
    simp only [hmap, Option.some.injEq, Prod.mk.injEq]
    split <;> simp_all

/-- The fifteen assigned opcodes are the opcodes of the opcode map's rows (R55, R57 (a)). -/
theorem opcodeMap_eq_none_iff {op : Byte} : opcodeMap op = none ↔
    op ∉ [0x00#8, 0x01#8, 0x02#8, 0x03#8, 0x10#8, 0x11#8, 0x12#8, 0x20#8, 0x21#8, 0x30#8, 0x31#8, 0x32#8, 0x33#8,
      0x34#8, 0x35#8] := by
  unfold opcodeMap
  split <;> simp_all

/-- A word of a command's opcode with no must-be-zero bit set decodes to some command of that opcode (R56). -/
theorem exists_decode_of_opcodeOf {w : Word} {j : Instr} (hop : opField w = opcodeOf j)
    (hzero : w &&& mbz (formatOf j) = 0#32) : ∃ i, decode w = .command i ∧ opcodeOf i = opcodeOf j := by
  obtain ⟨build, hmap, _⟩ := opcodeMap_opcodeOf j
  exact ⟨_, decode_eq_command_iff.mpr ⟨_, build, hop ▸ hmap, hzero, rfl⟩, (opcodeOf_formatOf_of_opcodeMap hmap _ _).1⟩

/-- Settles O1: the command's own row is found by its opcode, its word has the must-be-zero bits zero, and the row makes the
command of its operands. -/
theorem decodeOfEncode : Obligations.DecodeOfEncode := by
  intro i
  obtain ⟨build, hmap, hbuild⟩ := opcodeMap_opcodeOf i
  refine decode_eq_command_iff.mpr ⟨_, build, ?_, encode_and_mbz i, ?_⟩
  · rw [encode, opField_assembleWord, hmap]
  · rw [encode, aField_assembleWord, dField_assembleWord, hbuild]

/-- Settles O2: the command has the word's opcode, and every field of the word is its operand or zero. -/
theorem encodeOfDecode : Obligations.EncodeOfDecode := by
  intro w i h
  obtain ⟨f, build, hmap, hzero, rfl⟩ := decode_eq_command_iff.mp h
  rw [word_eq_fields w] at hzero
  obtain ⟨ha, hz, hd⟩ := operands_of_opcodeMap hmap hzero
  have hop := (opcodeOf_formatOf_of_opcodeMap hmap (aField w) (dField w)).1
  rw [encode, assembleWord, hop, ha, hz, hd]
  exact (word_eq_fields w).symm

/-- Settles O3: the mask comparison is the comparison of the opcode and of the must-be-zero bits, which is what decoding tests. -/
theorem wordIsInstanceExactlyWhenMaskMatches : Obligations.WordIsInstanceExactlyWhenMaskMatches := by
  intro w j
  rw [rowMask, rowMatch, and_mask_eq_match]
  constructor
  · rintro ⟨hop, hzero⟩
    exact exists_decode_of_opcodeOf hop hzero
  · rintro ⟨i, hdecode, hij⟩
    obtain ⟨f, build, hmap, hzero, rfl⟩ := decode_eq_command_iff.mp hdecode
    obtain ⟨_, hrow, _⟩ := opcodeMap_opcodeOf j
    have hop : opField w = opcodeOf j := (opcodeOf_formatOf_of_opcodeMap hmap _ _).1.symm.trans hij
    rw [hop, hrow] at hmap
    cases hmap
    exact ⟨hop, hzero⟩

/-- Settles O4: both refusals by the opcode map; a row with the word's opcode is the row of the commands it makes. -/
theorem undecodableWords : Obligations.UndecodableWords := by
  refine ⟨fun w => decode_eq_illegalOpcode_iff.trans opcodeMap_eq_none_iff, fun w => decode_eq_reservedField_iff.trans ?_⟩
  constructor
  · rintro ⟨f, build, hmap, hbits⟩
    obtain ⟨hop, rfl⟩ := opcodeOf_formatOf_of_opcodeMap hmap 0#8 0#8
    exact ⟨_, hop, hbits⟩
  · rintro ⟨i, hop, hbits⟩
    obtain ⟨build, hmap, _⟩ := opcodeMap_opcodeOf i
    exact ⟨_, build, hop ▸ hmap, hbits⟩

/-- Settles O5: each word is the word `encode` gives its command, so `decodeOfEncode` reads it back. -/
theorem writtenOutWordsDecode : Obligations.WrittenOutWordsDecode :=
  ⟨decodeOfEncode .nop, decodeOfEncode (.init 1#2), decodeOfEncode (.absb 0x61#8), decodeOfEncode (.rdd 27#8),
    decodeOfEncode (.stb 199#8 0x80#8), decodeOfEncode (.round 23#8)⟩

end Sys2Proof
end

section
/-! What a command does to the architectural state: its effect, or nothing when a check refuses it (spec/30_encoding.md R52). -/

namespace Sys2Proof.Machine

/-- A command that answers a next state fails a check and changes nothing, or passes both and has its effect (R52, R131). -/
theorem exec_arch_cases {i : Instr} {s t : State} (h : exec i s = .next t) :
    ((legal i s.arch.phase = false ∨ inRange i s.arch.mode = false) ∧ t.arch = s.arch) ∨
    (legal i s.arch.phase = true ∧ inRange i s.arch.mode = true ∧ ArchEffect i s.arch t.arch) := by
  rcases exec_next_cases h with ⟨hphase, rfl⟩ | ⟨_, hrange, rfl⟩ | ⟨hphase, hrange, τ, d, heffect, rfl⟩
  · exact .inl ⟨.inl hphase, rfl⟩
  · exact .inl ⟨.inr hrange, rfl⟩
  · exact .inr ⟨hphase, hrange, heffect⟩

/-- A command that passes both checks has its effect. -/
theorem exec_archEffect {i : Instr} {s t : State} (hphase : legal i s.arch.phase = true)
    (hrange : inRange i s.arch.mode = true) (h : exec i s = .next t) : ArchEffect i s.arch t.arch := by
  obtain ⟨τ, d, heffect, rfl⟩ := exec_passed hphase hrange h
  exact heffect

variable {i : Instr} {σ τ : Arch}

/-- Every command but CLR, INIT, ABSB and FINAL writes lanes at most (R80, R97, R114 to R117). -/
theorem ArchEffect.writes_lanes_only (h : ArchEffect i σ τ) (hclr : i ≠ .clr) (hinit : ∀ m, i ≠ .init m)
    (habsb : ∀ d, i ≠ .absb d) (hfinal : i ≠ .final) : ∃ S, τ = { σ with lanes := S } := by
  cases i with
  | clr => exact absurd rfl hclr
  | init m => exact absurd rfl (hinit m)
  | absb d => exact absurd rfl (habsb d)
  | final => exact absurd rfl hfinal
  | nop | rdsr a | rdd a | ldb a => exact ⟨σ.lanes, h⟩
  | stb a d | iota a | round a => obtain ⟨_, hτ⟩ := h; exact ⟨_, hτ⟩
  | theta | rhopi | chi | perm => exact ⟨_, h⟩

/-- Only INIT writes MODE (R12). -/
theorem ArchEffect.mode_eq (h : ArchEffect i σ τ) (hinit : ∀ m, i ≠ .init m) : τ.mode = σ.mode := by
  by_cases hclr : i = .clr
  · subst hclr; rw [show τ = _ from h]
  by_cases hfinal : i = .final
  · subst hfinal; obtain ⟨S, _, rfl⟩ := h; rfl
  by_cases habsb : ∃ d, i = .absb d
  · obtain ⟨d, rfl⟩ := habsb; obtain ⟨S, c, _, rfl⟩ := h; rfl
  · obtain ⟨S, rfl⟩ := h.writes_lanes_only hclr hinit (not_exists.mp habsb) hfinal; rfl

/-- Only CLR, INIT and ABSB write CURSOR (R14). -/
theorem ArchEffect.cursor_eq (h : ArchEffect i σ τ) (hclr : i ≠ .clr) (hinit : ∀ m, i ≠ .init m)
    (habsb : ∀ d, i ≠ .absb d) : τ.cursor = σ.cursor := by
  by_cases hfinal : i = .final
  · subst hfinal; obtain ⟨S, _, rfl⟩ := h; rfl
  · obtain ⟨S, rfl⟩ := h.writes_lanes_only hclr hinit habsb hfinal; rfl

/-- Only CLR, INIT and FINAL write PHASE (R119). -/
theorem ArchEffect.phase_eq (h : ArchEffect i σ τ) (hclr : i ≠ .clr) (hinit : ∀ m, i ≠ .init m)
    (hfinal : i ≠ .final) : τ.phase = σ.phase := by
  by_cases habsb : ∃ d, i = .absb d
  · obtain ⟨d, rfl⟩ := habsb; obtain ⟨S, c, _, rfl⟩ := h; rfl
  · obtain ⟨S, rfl⟩ := h.writes_lanes_only hclr hinit (not_exists.mp habsb) hfinal; rfl

/-- A command that reads has no effect on the architectural state (R36). -/
theorem ArchEffect.eq_of_reads (hi : i = .nop ∨ (∃ a, i = .ldb a) ∨ (∃ a, i = .rdd a) ∨ (∃ a, i = .rdsr a))
    (h : ArchEffect i σ τ) : τ = σ := by
  rcases hi with rfl | ⟨a, rfl⟩ | ⟨a, rfl⟩ | ⟨a, rfl⟩ <;> exact h

/-- A byte stored twice is the byte stored once. -/
theorem setByte_setByte (S : Lanes) (k : Fin 200) (v : Byte) : setByte (setByte S k v) k v = setByte S k v := by
  refine lanes_ext_bytes fun l => ?_
  rw [byteAt_setByte, byteAt_setByte]
  split <;> rfl

/-- Settles O53: a refusal keeps the architectural state, and no effect but INIT's writes MODE. -/
theorem modeIsWrittenByInitOnly : Obligations.ModeIsWrittenByInitOnly := by
  intro i s t hi h
  rcases exec_arch_cases h with ⟨_, hkept⟩ | ⟨_, _, heffect⟩
  · rw [hkept]
  · exact heffect.mode_eq hi

/-- Settles O54: CLR and INIT pass every check and write 0; the others by `ArchEffect.cursor_eq`. -/
theorem cursorIsWrittenByThreeCommands : Obligations.CursorIsWrittenByThreeCommands := by
  intro i s t h
  refine ⟨?_, fun hclr hinit habsb => ?_⟩
  · rintro (rfl | ⟨m, rfl⟩)
    · exact congrArg Arch.cursor (exec_archEffect rfl rfl h)
    · exact congrArg Arch.cursor (exec_archEffect rfl rfl h)
  · rcases exec_arch_cases h with ⟨_, hkept⟩ | ⟨_, _, heffect⟩
    · rw [hkept]
    · exact heffect.cursor_eq hclr hinit habsb

/-- Settles O55: CLR and INIT pass every check, FINAL the phase check in ABSORB only; the others by `ArchEffect.phase_eq`. -/
theorem phaseTransitions : Obligations.PhaseTransitions := by
  intro i s t h
  refine ⟨?_, ?_, ?_, ?_, fun hclr hinit hfinal => ?_⟩
  · rintro rfl
    exact congrArg Arch.phase (exec_archEffect rfl rfl h)
  · rintro ⟨m, rfl⟩
    exact congrArg Arch.phase (exec_archEffect rfl rfl h)
  · rintro rfl hphase
    have hlegal : legal .final s.arch.phase = true := beq_of_eq hphase
    obtain ⟨S, _, heffect⟩ := exec_archEffect hlegal rfl h
    exact congrArg Arch.phase heffect
  · rintro rfl hphase
    cases (exec_badPhase (i := .final) (beq_false_of_ne hphase)).symm.trans h
    rfl
  · rcases exec_arch_cases h with ⟨_, hkept⟩ | ⟨_, _, heffect⟩
    · rw [hkept]
    · exact heffect.phase_eq hclr hinit hfinal

/-- The effect of INIT, CLR, STB or a read, had a second time, changes nothing (R36). -/
theorem ArchEffect.idempotent {ρ : Arch} (hi : (∃ m, i = .init m) ∨ i = .clr ∨ i = .nop ∨ (∃ a d, i = .stb a d) ∨
      (∃ a, i = .ldb a) ∨ (∃ a, i = .rdd a) ∨ (∃ a, i = .rdsr a))
    (hfirst : ArchEffect i σ τ) (hagain : ArchEffect i τ ρ) : ρ = τ := by
  rcases hi with ⟨m, rfl⟩ | rfl | rfl | ⟨a, d, rfl⟩ | hread
  · exact hagain.trans hfirst.symm
  · have hmode : τ.mode = σ.mode := hfirst.mode_eq nofun
    rw [ArchEffect, hmode] at hagain
    exact hagain.trans hfirst.symm
  · exact hagain
  · obtain ⟨_, rfl⟩ := hfirst
    obtain ⟨_, rfl⟩ := hagain
    rw [setByte_setByte]
  · exact hagain.eq_of_reads (.inr hread)

/-- Settles O56: a reading command's effect is nothing; a command refused first is refused by the same check again, and the effect
of an executed one, had twice, is the same. -/
theorem readsAndIdempotence : Obligations.ReadsAndIdempotence := by
  refine ⟨fun i s t hi h => ?_, fun i s t u hi hfirst hsecond => ?_⟩
  · rcases exec_arch_cases h with ⟨_, hkept⟩ | ⟨_, _, heffect⟩
    · exact hkept
    · exact heffect.eq_of_reads hi
  · rcases exec_arch_cases hsecond with ⟨_, hkept⟩ | ⟨hphase, hrange, hagain⟩
    · exact hkept
    rcases exec_arch_cases hfirst with ⟨hrefused, hkept⟩ | ⟨_, _, heffect⟩
    · rw [hkept] at hphase hrange
      simp [hphase, hrange] at hrefused
    · exact heffect.idempotent hi hagain

end Sys2Proof.Machine
end

section
/-! Progress, and which commands are executed at all (spec/70_reset_and_hazards.md R152, R159; log entry 15). -/

namespace Sys2Proof.Machine

/-- With CURSOR inside the rate block no command stops: it is refused or executed (R159, R22). -/
theorem exec_progress (i : Instr) {s : State} (hcursor : s.arch.cursor.toNat < rate s.arch.mode) :
    ∃ t, exec i s = .next t := by
  by_cases hphase : legal i s.arch.phase = true
  swap
  · exact ⟨_, exec_badPhase (Bool.eq_false_of_not_eq_true hphase)⟩
  by_cases hrange : inRange i s.arch.mode = true
  swap
  · exact ⟨_, exec_badIndex hphase (Bool.eq_false_of_not_eq_true hrange)⟩
  have hblock := cursor_in_block hcursor
  cases i with
  | nop => exact ⟨_, exec_nop_eq_next s⟩
  | clr => exact ⟨_, exec_clr_eq_next s⟩
  | init m => exact ⟨_, exec_init_eq_next m s⟩
  | rdsr a => exact ⟨_, exec_rdsr_eq_next (of_decide_eq_true hrange) s⟩
  | ldb a => exact ⟨_, exec_ldb_eq_next (of_decide_eq_true hrange) s⟩
  | rdd a => exact ⟨_, exec_rdd_eq_next (eq_of_beq hphase) (of_decide_eq_true hrange)⟩
  | absb d =>
    have habsorb := absorbByte_eq (S := s.arch.lanes) (b := d) hblock
    split at habsorb <;> exact ⟨_, exec_absb_eq_next (eq_of_beq hphase) habsorb⟩
  | final => exact ⟨_, exec_final_eq_next (eq_of_beq hphase) (pad_eq hblock)⟩
  | stb a d => exact ⟨_, (exec_stb a d s).trans (checked_passed hphase hrange)⟩
  | theta => exact ⟨_, (exec_theta s).trans (checked_passed hphase hrange)⟩
  | rhopi => exact ⟨_, (exec_rhopi s).trans (checked_passed hphase hrange)⟩
  | chi => exact ⟨_, (exec_chi s).trans (checked_passed hphase hrange)⟩
  | iota a => exact ⟨_, (exec_iota a s).trans (checked_passed hphase hrange)⟩
  | round a => exact ⟨_, (exec_round a s).trans (checked_passed hphase hrange)⟩
  | perm => exact ⟨_, (exec_perm s).trans (checked_passed hphase hrange)⟩

/-- A command that passes both checks with CURSOR inside the block is executed. -/
theorem exists_executes {i : Instr} {s : State} (hcursor : s.arch.cursor.toNat < rate s.arch.mode)
    (hphase : legal i s.arch.phase = true) (hrange : inRange i s.arch.mode = true) : ∃ t, Executes i s t := by
  obtain ⟨t, h⟩ := exec_progress i hcursor
  obtain ⟨τ, d, _, rfl⟩ := exec_passed hphase hrange h
  exact ⟨_, h, d, rfl⟩

/-- An executed command passed both checks: a refusal answers another code. -/
theorem Executes.checks_passed {i : Instr} {s t : State} (h : Executes i s t) :
    legal i s.arch.phase = true ∧ inRange i s.arch.mode = true := by
  obtain ⟨hexec, d, hanswered⟩ := h
  rcases exec_next_cases hexec with ⟨_, rfl⟩ | ⟨_, _, rfl⟩ | ⟨hphase, hrange, _⟩
  · simp [Answered] at hanswered
  · simp [Answered] at hanswered
  · exact ⟨hphase, hrange⟩

/-- Every command is legal in some phase (R120). -/
theorem exists_legal_phase (i : Instr) : ∃ p, legal i p = true := by
  cases i with
  | absb d | final => exact ⟨.absorb, rfl⟩
  | rdd a => exact ⟨.done, rfl⟩
  | nop | clr | init m | rdsr a | ldb a | stb a d | theta | rhopi | chi | iota a | round a | perm => exact ⟨.idle, rfl⟩

/-- `wellFormed` is the range of the index with the widest digest, that of mode 3 (log entry 15). -/
theorem wellFormed_eq_inRange (i : Instr) : i.wellFormed = inRange i 3#2 := by
  cases i with
  | rdsr a => simp [Instr.wellFormed, inRange]
  | nop | clr | init m | absb d | final | rdd a | ldb a | stb a d | theta | rhopi | chi | iota a | round a | perm => rfl

/-- An index in range in some mode is in range in mode 3, which has the widest digest (R110). -/
theorem inRange_widest {i : Instr} {m : BitVec 2} (h : inRange i m = true) : inRange i 3#2 = true := by
  cases i with
  | rdd a => exact decide_eq_true (Nat.lt_of_lt_of_le (of_decide_eq_true h) (outLen_le_64 m))
  | nop | clr | init m | rdsr a | absb d | final | ldb a | stb a d | theta | rhopi | chi | iota a | round a | perm => exact h

/-- A command without a digest index has the same range in every mode (R59). -/
theorem inRange_eq_of_ne_rdd {i : Instr} (hi : ∀ a, i ≠ .rdd a) (m m' : BitVec 2) : inRange i m = inRange i m' := by
  cases i with
  | rdd a => exact absurd rfl (hi a)
  | nop | clr | init m | rdsr a | absb d | final | ldb a | stb a d | theta | rhopi | chi | iota a | round a | perm => rfl

/-- The commands that phase IDLE allows are all but ABSB, FINAL and RDD (R120). -/
theorem legal_idle {i : Instr} (habsb : ∀ d, i ≠ .absb d) (hfinal : i ≠ .final) (hrdd : ∀ a, i ≠ .rdd a) :
    legal i .idle = true := by
  cases i with
  | absb d => exact absurd rfl (habsb d)
  | final => exact absurd rfl hfinal
  | rdd a => exact absurd rfl (hrdd a)
  | nop | clr | init m | rdsr a | ldb a | stb a d | theta | rhopi | chi | iota a | round a | perm => rfl

/-- Settles O6: in mode 3 and in the phase that allows it, with zero lanes and CURSOR 0, a well-formed command is executed; an
executed one was in range. -/
theorem wellFormedExactlyWhenExecutable : Obligations.WellFormedExactlyWhenExecutable := by
  intro i
  rw [wellFormed_eq_inRange]
  constructor
  · intro hrange
    obtain ⟨p, hphase⟩ := exists_legal_phase i
    have hcursor : (0#8).toNat < rate 3#2 := by decide
    exact ⟨⟨⟨zeroLanes, 3#2, p, 0#8⟩, [], []⟩, exists_executes hcursor hphase hrange⟩
  · rintro ⟨s, t, h⟩
    exact inRange_widest h.checks_passed.2

/-- Settles O13: the reset phase is IDLE and the reset CURSOR is inside the block. -/
theorem firstCommandAfterReset : Obligations.FirstCommandAfterReset := by
  intro i s hreset
  have hphase : s.arch.phase = .idle := by rw [hreset]; rfl
  refine ⟨?_, ?_⟩
  · rintro (⟨d, rfl⟩ | rfl | ⟨a, rfl⟩) <;> exact exec_badPhase (by rw [hphase]; rfl)
  · rintro ⟨habsb, hfinal, hrdd, hwf⟩
    refine exists_executes (by rw [hreset]; decide) (by rw [hphase]; exact legal_idle habsb hfinal hrdd) ?_
    rw [inRange_eq_of_ne_rdd hrdd _ 3#2, ← wellFormed_eq_inRange]
    exact hwf

/-- Settles O24: a refusal leaves the architectural state, on which alone the outcome depends (`exec_congr_arch`). -/
theorem refusedAgain : Obligations.RefusedAgain := by
  intro i s t c hrefused hexec
  cases hrefused.symm.trans hexec
  rcases exec_congr_arch i s (s.refuse c) rfl with ⟨r, hfault, _⟩ | ⟨τ, c', d, hs, ht⟩
  · exact nomatch hrefused.symm.trans hfault
  · have hsame := Host.Outcome.next.inj (hs.symm.trans hrefused)
    have harch : τ = s.arch := congrArg State.arch hsame
    obtain ⟨rfl, rfl⟩ := Response.mk.inj
      (response_unique (State.respond_responses _ _ _) (congrArg State.responses hsame).symm)
    subst harch
    exact ht

/-- Settles O19: outside the block `absorb_byte` and `pad` have no result (R90). -/
theorem cursorOutsideBlockStops : Obligations.CursorOutsideBlockStops := by
  intro s hphase hcursor
  have houtside : ¬ (s.arch.cursor.toNat < rate s.arch.mode ∧ rate s.arch.mode ≤ 200) := fun h => Nat.not_lt.mpr hcursor h.1
  refine ⟨fun d => ?_, ?_⟩
  · have hlegal : legal (.absb d) s.arch.phase = true := beq_of_eq hphase
    rw [exec_absb, checked_passed hlegal rfl, absorbByte, dif_neg houtside]
  · have hlegal : legal .final s.arch.phase = true := beq_of_eq hphase
    rw [exec_final, checked_passed hlegal rfl, pad, dif_neg houtside]

end Sys2Proof.Machine
end

section
/-! Steps and runs of the machine (spec/30_encoding.md R50 to R52; spec/10_state.md R22; spec/70_reset_and_hazards.md R151, R159). -/

namespace Sys2Proof.Machine

variable {s t : State}

/-- Settles O7: this is `step_command`. -/
theorem stepRunsDecodedCommand : Obligations.StepRunsDecodedCommand := fun _ _ _ _ => step_command

/-- Settles O8: `step` takes the word and refuses it with the code of the stage it fails. -/
theorem stepRefusesUndecodableWords : Obligations.StepRefusesUndecodableWords := fun _ _ _ hinputs =>
  ⟨fun hd => ⟨_, step_illegalOpcode hinputs hd, rfl, rfl, rfl⟩, fun hd => ⟨_, step_reservedField hinputs hd, rfl, rfl, rfl⟩⟩

/-- Settles O11: the event resets the block, and the abandoned word is only its record. -/
theorem resetAbandonsCommand : Obligations.ResetAbandonsCommand := fun _ _ _ hinputs =>
  ⟨_, step_abandoned hinputs, rfl, rfl, rfl⟩

/-- Settles O14: a step that finds a word refuses or executes it, and either gives one response. -/
theorem oneResponsePerWord : Obligations.OneResponsePerWord := by
  intro s t w es hinputs hstep
  cases step_cases hstep with
  | idle hnone => exact nomatch hinputs.symm.trans hnone
  | reset e _ he hreset =>
    obtain ⟨rfl, _⟩ := List.cons.inj (hinputs.symm.trans hreset)
    simp at he
  | executed _ _ _ τ d hword _ _ _ _ ht | refused _ _ c hword _ ht =>
    subst ht
    obtain ⟨_, rfl⟩ := List.cons.inj (hinputs.symm.trans hword)
    exact ⟨rfl, _, rfl⟩

/-! ### R22's invariant -/

/-- The reset values meet the invariant (R22, R23). -/
theorem Arch.inv_reset : Arch.reset.Inv := ⟨by decide, fun _ => rfl⟩

/-- Settles O16: the reset values meet the invariant. -/
theorem invariantAtReset : Obligations.InvariantAtReset := Arch.inv_reset

/-- CURSOR 0 is inside the rate block of every mode (R111). -/
theorem zero_lt_rate (m : BitVec 2) : 0 < rate m := Nat.lt_of_lt_of_le (by decide) (rate_bounds m).1

/-- The effect of a legal command keeps the invariant: CLR and INIT write CURSOR 0, `absorb_byte` keeps it below the rate,
and the rest keeps CURSOR, MODE and the phase IDLE (R22). -/
theorem ArchEffect.inv {i : Instr} {σ τ : Arch} (h : ArchEffect i σ τ) (hlegal : legal i σ.phase = true) (hσ : σ.Inv) :
    τ.Inv := by
  by_cases hclr : i = .clr
  · subst hclr
    rw [show τ = _ from h]
    exact ⟨zero_lt_rate σ.mode, fun _ => rfl⟩
  by_cases hinit : ∃ m, i = .init m
  · obtain ⟨m, rfl⟩ := hinit
    rw [show τ = _ from h]
    exact ⟨zero_lt_rate m, fun _ => rfl⟩
  by_cases habsb : ∃ d, i = .absb d
  · obtain ⟨d, rfl⟩ := habsb
    obtain ⟨S, c, habsorb, rfl⟩ := h
    have hphase : σ.phase = .absorb := eq_of_beq hlegal
    exact ⟨Nat.lt_of_le_of_lt (Nat.mod_le _ _) (absorbByte_some habsorb).2.2, fun hidle => nomatch hphase.symm.trans hidle⟩
  by_cases hfinal : i = .final
  · subst hfinal
    obtain ⟨S, _, rfl⟩ := h
    exact ⟨hσ.cursor_lt_rate, nofun⟩
  · obtain ⟨S, rfl⟩ := h.writes_lanes_only hclr (not_exists.mp hinit) (not_exists.mp habsb) hfinal
    exact ⟨hσ.cursor_lt_rate, hσ.idle_cursor⟩

/-- Settles O17: a step keeps the architectural state, resets it, or has the effect of a command it found legal. -/
theorem stepKeepsInvariant : Obligations.StepKeepsInvariant := by
  intro s t hs hstep
  cases step_cases hstep with
  | idle _ ht => exact ht ▸ hs
  | refused _ _ _ _ _ ht => subst ht; exact hs
  | executed _ _ _ _ _ _ _ hlegal _ heffect ht => subst ht; exact heffect.inv hlegal hs
  | reset _ _ _ _ ht => subst ht; exact Arch.inv_reset

/-- From the invariant a step answers a next state (R159). -/
theorem step_progress (hs : s.Inv) : ∃ t, step s = .next t := by
  match hinputs : s.inputs with
  | [] => exact ⟨_, step_no_event hinputs⟩
  | .reset :: _ => exact ⟨_, step_reset hinputs⟩
  | .abandoned _ :: _ => exact ⟨_, step_abandoned hinputs⟩
  | .word w :: es =>
    match hd : decode w with
    | .illegalOpcode => exact ⟨_, step_illegalOpcode hinputs hd⟩
    | .reservedField => exact ⟨_, step_reservedField hinputs hd⟩
    | .command i =>
      rw [step_command hinputs hd]
      exact exec_progress i (s := s.withInputs es) hs.cursor_lt_rate

/-- From the invariant a step answers a next state that meets the invariant. -/
theorem step_next_inv (hs : s.Inv) : ∃ t, step s = .next t ∧ t.Inv := by
  obtain ⟨t, ht⟩ := step_progress hs
  exact ⟨t, ht, stepKeepsInvariant s t hs ht⟩

/-- Settles O18, by induction on the number of steps: the invariant gives a next state and holds of it again. -/
theorem noStopFromTheInvariant : Obligations.NoStopFromTheInvariant := by
  intro s hs n
  induction n generalizing s with
  | zero => exact ⟨s, rfl⟩
  | succ n ih =>
    obtain ⟨t, ht, htinv⟩ := step_next_inv hs
    rw [State.run_succ_of_step ht]
    exact ih t htinv

/-- Settles O15, by induction on the number of steps: with no word left the state is held, otherwise a step takes one word and
answers one response. -/
theorem commandWordsRunToTheEnd : Obligations.CommandWordsRunToTheEnd := by
  intro s hs hwords n hn
  induction n generalizing s with
  | zero =>
    have hnone : s.inputs = [] := List.eq_nil_of_length_eq_zero (Nat.le_zero.mp hn)
    exact ⟨s, rfl, hnone, by simp [hnone], [], List.append_nil _⟩
  | succ n ih =>
    match hinputs : s.inputs with
    | [] =>
      rw [State.run_succ_of_step (step_no_event hinputs)]
      simpa [hinputs] using ih s hs hwords (by simp [hinputs])
    | .word w :: es =>
      obtain ⟨t, ht, htinv⟩ := step_next_inv hs
      obtain ⟨htes, r, hr⟩ := oneResponsePerWord s t w es hinputs ht
      have hrest : wordsOnly t.inputs = true := by simpa [wordsOnly, hinputs, htes] using hwords
      have hlength : t.inputs.length ≤ n := by
        rw [hinputs] at hn
        simpa [htes] using hn
      obtain ⟨u, hrun, hempty, hcount, rs, hrs⟩ := ih t htinv hrest hlength
      refine ⟨u, (State.run_succ_of_step ht n).trans hrun, hempty, ?_, r :: rs, ?_⟩
      · simp only [hcount, hr, htes, List.length_append, List.length_cons, List.length_nil]
        omega
      · rw [← hrs, hr, List.append_assoc]
        rfl
    | .reset :: es | .abandoned w :: es => simp [wordsOnly, hinputs] at hwords

/-! ### The digest stays (R100) -/

/-- A digest is held and nothing waits that could end phase DONE (R100). -/
def State.HoldsDigest (s : State) : Prop := s.arch.phase = .done ∧ s.inputs.all (fun e => !endsDigest e) = true

/-- A command that phase DONE allows has no effect on the architectural state, unless it is INIT or CLR (R100, R120). -/
theorem ArchEffect.eq_of_done {i : Instr} {σ τ : Arch} (h : ArchEffect i σ τ) (hphase : σ.phase = .done)
    (hlegal : legal i σ.phase = true) (hclr : i ≠ .clr) (hinit : ∀ m, i ≠ .init m) : τ = σ := by
  rw [hphase] at hlegal
  cases i with
  | clr => exact absurd rfl hclr
  | init m => exact absurd rfl (hinit m)
  | nop | rdsr a | rdd a | ldb a => exact h
  | absb d | final | stb a d | theta | rhopi | chi | iota a | round a | perm => exact nomatch hlegal

/-- While a digest is held, a step keeps the architectural state and the digest held. -/
theorem State.HoldsDigest.step (hs : s.HoldsDigest) (hstep : step s = .next t) : t.arch = s.arch ∧ t.HoldsDigest := by
  obtain ⟨hphase, hkeep⟩ := hs
  cases step_cases hstep with
  | idle _ ht => subst ht; exact ⟨rfl, hphase, hkeep⟩
  | refused w es c hword _ ht =>
    subst ht
    rw [hword, List.all_cons, Bool.and_eq_true] at hkeep
    exact ⟨rfl, hphase, hkeep.2⟩
  | executed w es i τ d hword hdecode hlegal _ heffect ht =>
    subst ht
    rw [hword, List.all_cons, Bool.and_eq_true] at hkeep
    obtain ⟨hfirst, hrest⟩ := hkeep
    have hclr : i ≠ .clr := by rintro rfl; simp [endsDigest, hdecode] at hfirst
    have hinit : ∀ m, i ≠ .init m := by rintro m rfl; simp [endsDigest, hdecode] at hfirst
    have hτ : τ = s.arch := heffect.eq_of_done hphase hlegal hclr hinit
    exact ⟨hτ, (congrArg Arch.phase hτ).trans hphase, hrest⟩
  | reset e es he hevent _ =>
    rcases he with rfl | ⟨w, rfl⟩ <;> simp [hevent, endsDigest] at hkeep

/-- Settles O57, by induction on the number of steps: each step keeps the architectural state and goes on holding the digest. -/
theorem digestIsImmutable : Obligations.DigestIsImmutable := by
  intro s t n hphase hkeep hrun
  have hs : s.HoldsDigest := ⟨hphase, hkeep⟩
  clear hphase hkeep
  induction n generalizing s with
  | zero => cases hrun; rfl
  | succ n ih =>
    obtain ⟨u, hstep, hrest⟩ := State.run_succ_next hrun
    obtain ⟨harch, hu⟩ := hs.step hstep
    exact (ih u hrest hu).trans harch

/-! ### The past is forgotten (R121) -/

/-- The states have the same future: the same architectural state and the same events waiting, whatever was answered before. -/
def SameFuture (s u : State) : Prop := s.arch = u.arch ∧ s.inputs = u.inputs

/-- `t` and `v` come from `s` and `u` with the same responses and have the same future. -/
def AdvanceAlike (s u t v : State) : Prop :=
  SameFuture t v ∧ ∃ rs, t.responses = s.responses ++ rs ∧ v.responses = u.responses ++ rs

theorem AdvanceAlike.trans {s u t v x y : State} (h : AdvanceAlike s u t v) (h' : AdvanceAlike t v x y) :
    AdvanceAlike s u x y := by
  obtain ⟨_, rs, ht, hv⟩ := h
  obtain ⟨hsame, rs', hx, hy⟩ := h'
  exact ⟨hsame, rs ++ rs', by rw [hx, ht, List.append_assoc], by rw [hy, hv, List.append_assoc]⟩

/-- The same architectural state and the same response put two states on the same future. -/
theorem advanceAlike_respond (s u : State) (es : List HostEvent) (σ : Arch) (c : Code) (d : Byte) :
    AdvanceAlike s u (((s.withInputs es).withArch σ).respond c d) (((u.withInputs es).withArch σ).respond c d) :=
  ⟨⟨rfl, rfl⟩, _, rfl, rfl⟩

/-- States of the same future take the same step. -/
theorem SameFuture.step {u : State} (hsu : SameFuture s u) (hstep : step s = .next t) :
    ∃ v, step u = .next v ∧ AdvanceAlike s u t v := by
  obtain ⟨harch, hwait⟩ := hsu
  have resetAlike (es : List HostEvent) :
      AdvanceAlike s u (s.withInputs es).resetBlock (u.withInputs es).resetBlock := ⟨⟨rfl, rfl⟩, [], by simp, by simp⟩
  have refuseAlike (es : List HostEvent) (c : Code) :
      AdvanceAlike s u ((s.withInputs es).refuse c) ((u.withInputs es).refuse c) := ⟨⟨harch, rfl⟩, _, rfl, rfl⟩
  match hs : s.inputs with
  | [] =>
    cases (step_no_event hs).symm.trans hstep
    exact ⟨u, step_no_event (hwait ▸ hs), ⟨harch, hwait⟩, [], by simp, by simp⟩
  | .reset :: es =>
    cases (step_reset hs).symm.trans hstep
    exact ⟨_, step_reset (hwait ▸ hs), resetAlike es⟩
  | .abandoned w :: es =>
    cases (step_abandoned hs).symm.trans hstep
    exact ⟨_, step_abandoned (hwait ▸ hs), resetAlike es⟩
  | .word w :: es =>
    match hd : decode w with
    | .illegalOpcode =>
      cases (step_illegalOpcode hs hd).symm.trans hstep
      exact ⟨_, step_illegalOpcode (hwait ▸ hs) hd, refuseAlike es _⟩
    | .reservedField =>
      cases (step_reservedField hs hd).symm.trans hstep
      exact ⟨_, step_reservedField (hwait ▸ hs) hd, refuseAlike es _⟩
    | .command i =>
      rw [step_command hs hd] at hstep
      rw [step_command (hwait ▸ hs) hd]
      rcases exec_congr_arch i (s.withInputs es) (u.withInputs es) harch with ⟨r, hfault, _⟩ | ⟨τ, c, d, hst, hut⟩
      · exact nomatch hfault.symm.trans hstep
      · cases hst.symm.trans hstep
        exact ⟨_, hut, advanceAlike_respond s u es τ c d⟩

/-- States of the same future have the same runs, by induction on the number of steps. -/
theorem SameFuture.run {u : State} {n : Nat} (hsu : SameFuture s u) (hrun : s.run n = .next t) :
    ∃ v, u.run n = .next v ∧ AdvanceAlike s u t v := by
  induction n generalizing s u with
  | zero => cases hrun; exact ⟨u, rfl, hsu, [], by simp, by simp⟩
  | succ n ih =>
    obtain ⟨x, hstep, hrest⟩ := State.run_succ_next hrun
    obtain ⟨y, hystep, hxy⟩ := hsu.step hstep
    obtain ⟨v, hv, hadvance⟩ := ih hxy.1 hrest
    exact ⟨v, (State.run_succ_of_step hystep n).trans hv, hxy.trans hadvance⟩

/-- Settles O58: the step of INIT writes the whole architectural state, so the two states have the same future after it. -/
theorem initForgetsThePast : Obligations.InitForgetsThePast := by
  intro m es s u t n hs hu hrun
  have hdecode := decodeOfEncode (.init m)
  have hsstep := (step_command hs hdecode).trans (exec_init_eq_next m _)
  have hustep := (step_command (hu.trans hs) hdecode).trans (exec_init_eq_next m _)
  have hafter := advanceAlike_respond s u es ⟨zeroLanes, m, .absorb, 0#8⟩ .ok 0x00#8
  rw [State.run_succ_of_step hsstep] at hrun
  obtain ⟨v, hv, hadvance⟩ := hafter.1.run hrun
  obtain ⟨⟨harch, hinputs⟩, rs, ht, hvr⟩ := hafter.trans hadvance
  exact ⟨v, rs, (State.run_succ_of_step hustep n).trans hv, harch.symm, hinputs.symm, ht, hvr⟩

end Sys2Proof.Machine
end

section
/-! The constant tables and the lane functions of the permutation (spec/10_state.md R17 to R19; spec/40_permutation.md R70 to R77). -/

namespace Sys2Proof.Machine

/-- The lane the walk carries into step `i`: lane 1 into the first, the lane displaced by the step before into the others (R72). -/
def walkSource : Fin 24 → Fin 25 := Fin.cases 1 fun k : Fin 23 => targetLanes[k.castSucc]

/-- The walk leaves in the target of step `i` the lane carried into it, rotated (R73). -/
theorem rhopi_target (S : Lanes) (i : Fin 24) :
    (rhopi S)[targetLanes[i]] = rotl64 S[walkSource i] rotationAmounts[i] := by
  rw [rhopi_getElem]
  fin_cases i <;> rfl

/-- Lane 0 is no target of the walk (R73). -/
theorem rhopi_zero (S : Lanes) : (rhopi S)[(0 : Fin 25)] = S[(0 : Fin 25)] :=
  (rhopi_getElem S 0).trans (walkedLane_of_not_target S _ (by decide))

/-- Every lane but lane 0 is the target of a step of the walk (R19). -/
theorem eq_zero_or_target (j : Fin 25) : j = 0 ∨ ∃ i : Fin 24, j = targetLanes[i] := by
  revert j; decide

/-- States with the same lane at every index are the same. -/
theorem lanes_ext_index {S T : Lanes} (h : ∀ j : Fin 25, S[j] = T[j]) : S = T := Vector.ext fun j hj => h ⟨j, hj⟩

/-- States with the same lane 0 and the same lane at every target of the walk are the same. -/
theorem lanes_ext_target {S T : Lanes} (hzero : S[(0 : Fin 25)] = T[(0 : Fin 25)])
    (htarget : ∀ i : Fin 24, S[targetLanes[i]] = T[targetLanes[i]]) : S = T := by
  refine lanes_ext_index fun j => ?_
  rcases eq_zero_or_target j with rfl | ⟨i, rfl⟩
  · exact hzero
  · exact htarget i

/-- Settles O36: the closed form is `rhopi_target`, with the source written out for the first step and for the later ones. -/
theorem rhopiClosedForm : Obligations.RhopiClosedForm := fun S =>
  ⟨rhopi_zero S, rhopi_target S 0, fun i => rhopi_target S i.succ⟩

/-- The lane that pi moves to lane `j` (R75). -/
def piSource (j : Fin 25) : Fin 25 := laneIndex (columnOf j + 3 * rowOf j) (columnOf j)

/-- The lanes of pi (R75). -/
theorem pi_getElem (S : Lanes) (j : Fin 25) : (pi S)[j] = S[piSource j] := by
  have h := laneAt_tabulateLanes (fun x y => laneAt S (x + 3 * y) x) (columnOf j) (rowOf j)
  simp only [laneAt, laneIndex_column_row] at h
  exact h

/-- The lanes of rho but lane 0 (R74). -/
theorem rho_getElem (S : Lanes) {j : Fin 25} (hj : j ≠ 0) : (rho S)[j] = rotl64 S[j] rhoOffsets[j] := by
  have h := laneAt_tabulateLanes (fun x y => rotl64 (laneAt S x y) rhoOffsets[laneIndex x y]) (columnOf j) (rowOf j)
  simp only [laneAt, laneIndex_column_row] at h
  have hne : 0 ≠ j.val := fun e => hj (Fin.ext e.symm)
  rw [rho, Fin.getElem_fin, Vector.getElem_set_ne _ _ hne]
  exact h

/-- Lane 0 of rho (R74). -/
theorem rho_zero (S : Lanes) : (rho S)[(0 : Fin 25)] = S[(0 : Fin 25)] := Vector.getElem_set_self _

/-- The tables of the walk against those of the two separate steps: what pi moves to the target of step `i` is the lane carried into
that step, which is not lane 0, and rho rotates it by the step's amount (R18, R19, R74, R75). -/
theorem walk_tables (i : Fin 24) : piSource targetLanes[i] = walkSource i ∧ walkSource i ≠ 0 ∧
    rhoOffsets[walkSource i] = rotationAmounts[i] := by
  revert i; decide

/-- Settles O37: lane 0 stays in both; every other lane is the target of a step, where `walk_tables` compares the two. -/
theorem rhopiIsPiAfterRho : Obligations.RhopiIsPiAfterRho := by
  intro S
  refine lanes_ext_target ?_ fun i => ?_
  · exact (rhopi_zero S).trans ((pi_getElem _ 0).trans (rho_zero S)).symm
  · obtain ⟨hsource, hne, hamount⟩ := walk_tables i
    rw [rhopi_target, pi_getElem]
    simp only [hsource]
    rw [rho_getElem S hne, hamount]

/-- Settles O46: XORing the same constant twice into lane 0 restores it, and the other lanes are kept. -/
theorem iotaIsItsOwnInverse : Obligations.IotaIsItsOwnInverse := by
  intro S ir
  refine lanes_ext_index fun j => ?_
  rw [getElem_iota, getElem_iota]
  split
  · rw [BitVec.xor_assoc, BitVec.xor_self, BitVec.xor_zero]
  · rfl

/-! ### Uniform states -/

/-- A lane of equal bits is its own rotation. -/
theorem rotl64_uniform {v : Lane} (hv : v = 0#64 ∨ v = BitVec.allOnes 64) (n : Nat) : rotl64 v n = v := by
  rw [rotl64_eq_rotateLeft]
  apply BitVec.eq_of_getLsbD_eq
  intro i hi
  rw [BitVec.getLsbD_rotateLeft]
  rcases hv with rfl | rfl
  · simp
  · simp only [BitVec.getLsbD_allOnes, hi, decide_true, Bool.true_and]
    by_cases hlow : i < n % 64
    · rw [decide_eq_true hlow, cond_true]
      exact decide_eq_true (by omega)
    · rw [decide_eq_false hlow, cond_false]
      exact decide_eq_true (by omega)

/-- Every lane of a uniform state is the one lane. -/
@[simp] theorem laneAt_replicate (v : Lane) (x y : Fin 5) : laneAt (Vector.replicate 25 v) x y = v :=
  Vector.getElem_replicate _

/-- The parity of five equal lanes is the lane. -/
theorem columnParities_replicate (v : Lane) (x : Fin 5) : (columnParities (Vector.replicate 25 v))[x] = v := by
  simp [columnParities]

/-- theta XORs a uniform state with `v ^ v`, v being its own rotation. -/
theorem theta_uniform {v : Lane} (hv : v = 0#64 ∨ v = BitVec.allOnes 64) :
    theta (Vector.replicate 25 v) = Vector.replicate 25 v := by
  refine lanes_ext_laneAt fun x y => ?_
  rw [laneAt_theta, columnParities_replicate, columnParities_replicate, rotl64_uniform hv, BitVec.xor_self, BitVec.xor_zero]

/-- rhopi only rotates and moves lanes. -/
theorem rhopi_uniform {v : Lane} (hv : v = 0#64 ∨ v = BitVec.allOnes 64) :
    rhopi (Vector.replicate 25 v) = Vector.replicate 25 v := by
  have hlane (k : Fin 25) : (Vector.replicate 25 v)[k] = v := Vector.getElem_replicate _
  refine lanes_ext_target (rhopi_zero _) fun i => ?_
  rw [rhopi_target, hlane, hlane, rotl64_uniform hv]

/-- chi XORs every lane with `~v & v`. -/
theorem chi_replicate (v : Lane) : chi (Vector.replicate 25 v) = Vector.replicate 25 v := by
  refine lanes_ext_laneAt fun x y => ?_
  rw [laneAt_chi]
  simp

/-- Settles O45: one lemma for each step. -/
theorem uniformStatesAreFixed : Obligations.UniformStatesAreFixed := fun v hv =>
  ⟨theta_uniform hv, rhopi_uniform hv, chi_replicate v⟩

/-! ### Tables -/

/-- The bits of a round constant stand at the places `2^j - 1` (R17). -/
theorem roundConstants_places (ir : Fin 24) (b : Fin 64) (h : (roundConstants[ir]).getLsbD b.val = true) :
    b.val ∈ [0, 1, 3, 7, 15, 31, 63] := by
  revert ir b; decide

/-- They are the bits of the shift register (R17). -/
theorem roundConstants_bits (ir : Fin 24) (j : Fin 7) :
    (roundConstants[ir]).getLsbD (2 ^ j.val - 1) = rcBit (j.val + 7 * ir.val) := by
  revert ir j; decide

/-- Settles O48: each clause evaluates a table of 24 entries against its formula. -/
theorem tablesFollowTheirFormulas : Obligations.TablesFollowTheirFormulas :=
  ⟨roundConstants_bits, roundConstants_places, by decide, by decide, by decide⟩

/-- Settles O49: the values are the table's, mode by mode. -/
theorem variantTable : Obligations.VariantTable := ⟨by decide, by decide, by decide⟩

end Sys2Proof.Machine
end

section
/-! The sponge functions (spec/41_sponge.md R90 to R94). -/

namespace Sys2Proof.Machine

/-- Outside the block `pad` has no result (R90). -/
theorem pad_none {S : Lanes} {o r : Nat} {b : Byte} (h : r ≤ o ∨ 200 < r) : pad S o b r = none :=
  dif_neg (by omega)

/-- Settles O50: inside the block the padded lanes are two XORs, one on the other (`pad_eq`). -/
theorem paddingTouchesTwoBytes : Obligations.PaddingTouchesTwoBytes := by
  refine ⟨fun S o r b ho hr => ⟨_, pad_eq ⟨ho, hr⟩, fun k => ?_⟩, fun S o r b => pad_none⟩
  rw [byteAt_xorByte_eq_xor, byteAt_xorByte_eq_xor]
  rfl

/-- `absorb_byte` inside the block advances the cursor by one, modulo the rate (R91). -/
theorem absorbByte_cursor {r c : Nat} (hc : c < r) (hr : r ≤ 200) (S : Lanes) (b : Byte) :
    ∃ T, absorbByte S c b r = some (T, (c + 1) % r) := by
  rw [absorbByte_eq ⟨hc, hr⟩]
  by_cases hfull : c + 1 = r
  · rw [if_pos hfull, hfull, Nat.mod_self]
    exact ⟨_, rfl⟩
  · rw [if_neg hfull, Nat.mod_eq_of_lt (by omega)]
    exact ⟨_, rfl⟩

/-- The absorb loop has a result from every cursor inside the block, and advances the cursor by the length of the message, modulo
the rate (R92). -/
theorem absorbFrom_cursor {r : Nat} (hr : r ≤ 200) (M : List Byte) {c : Nat} (hc : c < r) (S : Lanes) :
    ∃ T, absorbFrom S c M r = some (T, (c + M.length) % r) := by
  induction M generalizing S c with
  | nil =>
    rw [List.length_nil, Nat.add_zero, Nat.mod_eq_of_lt hc]
    exact ⟨S, rfl⟩
  | cons b M ih =>
    obtain ⟨T, hT⟩ := absorbByte_cursor hc hr S b
    obtain ⟨U, hU⟩ := ih (Nat.mod_lt (c + 1) (Nat.zero_lt_of_lt hc)) T
    refine ⟨U, ?_⟩
    rw [Nat.mod_add_mod, Nat.add_right_comm, Nat.add_assoc] at hU
    rw [absorbFrom, hT]
    exact hU

/-- Settles O51: the absorb starts at cursor 0, which is inside every block. -/
theorem absorbOffset : Obligations.AbsorbOffset := by
  refine ⟨fun S M r hpos hr => ?_, fun S M r hr => if_neg (by omega)⟩
  obtain ⟨T, hT⟩ := absorbFrom_cursor hr M hpos S
  rw [Nat.zero_add] at hT
  exact ⟨T, (if_pos ⟨hpos, hr⟩).trans hT⟩

@[simp] theorem firstBytes_length (S : Lanes) (n : Nat) (h : n ≤ 200) : (firstBytes S n h).length = n := by
  simp [firstBytes]

/-- The first bytes, one by one (R94). -/
theorem firstBytes_getElem? (S : Lanes) {n k : Nat} (h : n ≤ 200) (hk : k < n) :
    (firstBytes S n h)[k]? = some (byteAt S ⟨k, Nat.lt_of_lt_of_le hk h⟩) := by
  simp [firstBytes, hk]

/-- In R90's range the squeeze has a result, and it is this one (R94). -/
theorem squeeze_eq {S T : Lanes} {n r o : Nat} {b : Byte} (hn : 1 ≤ n ∧ n ≤ r ∧ r ≤ 200) (hpad : pad S o b r = some T) :
    squeeze S n b r o = some (keccakF T, firstBytes (keccakF T) n (hn.2.1.trans hn.2.2)) := by
  rw [squeeze, dif_pos hn, hpad]

/-- Without padded lanes the squeeze has no result. -/
theorem squeeze_none_of_pad {S : Lanes} {n r o : Nat} {b : Byte} (hpad : pad S o b r = none) : squeeze S n b r o = none := by
  rw [squeeze, hpad]
  split <;> rfl

/-- Settles O52: the result by `squeeze_eq` on the padded lanes; outside the range `squeeze` or `pad` has none. -/
theorem squeezeContract : Obligations.SqueezeContract := by
  refine ⟨fun S n r o b hpos hnr hr ho => ?_, fun S n r o b hout => ?_⟩
  · have hpad := pad_eq (S := S) (b := b) ⟨ho, hr⟩
    exact ⟨_, _, hpad, squeeze_eq ⟨hpos, hnr, hr⟩ hpad, firstBytes_length _ _ _,
      fun k _ hk => firstBytes_getElem? _ _ hk⟩
  · by_cases ho : r ≤ o
    · exact squeeze_none_of_pad (pad_none (.inl ho))
    · exact dif_neg (by omega)

end Sys2Proof.Machine
end

section
/-! Command sequences: a list of commands that are all executed, from one architectural state to another, with the bytes it answers
(spec/00_scope.md R6 (a); spec/30_encoding.md R62). -/

namespace Sys2Proof.Machine

/-- The commands `is` are all executed, one after the other: they lead from the architectural state `σ` to `τ` and answer the bytes
`ds`, one each. -/
inductive Runs : List Instr → Arch → Arch → List Byte → Prop
  /-- no command: nothing is done -/
  | nil (σ : Arch) : Runs [] σ σ []
  /-- a command executed wherever the architectural state is `σ`, and then the others -/
  | cons {i : Instr} {is : List Instr} {σ τ ρ : Arch} {d : Byte} {ds : List Byte}
      (hexec : ∀ s : State, s.arch = σ → exec i s = .next ((s.withArch τ).answer d)) (hrest : Runs is τ ρ ds) :
      Runs (i :: is) σ ρ (d :: ds)

/-- The machine runs the words of such commands, whatever waits behind them, and gives the answers in order. -/
theorem Runs.run {is : List Instr} {σ τ : Arch} {ds : List Byte} (h : Runs is σ τ ds) {s : State} {es : List HostEvent}
    (harch : s.arch = σ) (hinputs : s.inputs = present is ++ es) :
    s.run is.length = .next ⟨τ, es, s.responses ++ ds.map (⟨.ok, ·⟩)⟩ := by
  induction h generalizing s with
  | nil σ =>
    obtain ⟨arch, inputs, responses⟩ := s
    obtain rfl : arch = σ := harch
    obtain rfl : inputs = es := hinputs
    rw [List.length_nil, State.run_zero, List.map_nil, List.append_nil]
  | cons hexec _ ih =>
    have hstep := (step_command hinputs (decodeOfEncode _)).trans (hexec _ harch)
    rw [List.length_cons, State.run_succ_of_step hstep, ih rfl rfl]
    simp

/-- Command sequences compose. -/
theorem Runs.append {is js : List Instr} {σ τ ρ : Arch} {ds bs : List Byte} (h : Runs is σ τ ds) (h' : Runs js τ ρ bs) :
    Runs (is ++ js) σ ρ (ds ++ bs) := by
  induction h with
  | nil σ => exact h'
  | cons hexec _ ih => exact .cons hexec (ih h')

/-! ### Commands that write lanes -/

/-- In phase IDLE the command writes the lanes `f` of the lanes, acknowledges, and does nothing else (R80, R87). -/
def TransformsLanes (i : Instr) (f : Lanes → Lanes) : Prop :=
  ∀ s : State, s.arch.phase = .idle → exec i s = .next (s.withLanes (f s.arch.lanes)).acknowledge

/-- A command of phase IDLE with its index in range, whose effect is to write the lanes `f` gives and to acknowledge. -/
theorem IdleOnly.transformsLanes {i : Instr} {f : Lanes → Lanes} (hi : IdleOnly i) (hrange : ∀ m, inRange i m = true)
    (hexec : ∀ s, ∃ body, exec i s = checked i s body ∧
      ∀ h, body h = .next (s.withLanes (f s.arch.lanes)).acknowledge) : TransformsLanes i f := by
  intro s hphase
  obtain ⟨body, hchecked, hbody⟩ := hexec s
  rw [hchecked, checked_passed (hi.legal_of_idle hphase) (hrange _), hbody]

theorem transformsLanes_theta : TransformsLanes .theta theta :=
  idleOnly_theta.transformsLanes (fun _ => rfl) fun s => ⟨_, exec_theta s, fun _ => rfl⟩
theorem transformsLanes_rhopi : TransformsLanes .rhopi rhopi :=
  idleOnly_rhopi.transformsLanes (fun _ => rfl) fun s => ⟨_, exec_rhopi s, fun _ => rfl⟩
theorem transformsLanes_chi : TransformsLanes .chi chi :=
  idleOnly_chi.transformsLanes (fun _ => rfl) fun s => ⟨_, exec_chi s, fun _ => rfl⟩
theorem transformsLanes_iota {a : Byte} (ha : a.toNat < 24) : TransformsLanes (.iota a) (iota · ⟨a.toNat, ha⟩) :=
  (idleOnly_iota a).transformsLanes (fun _ => decide_eq_true ha) fun s => ⟨_, exec_iota a s, fun _ => rfl⟩
theorem transformsLanes_round {a : Byte} (ha : a.toNat < 24) : TransformsLanes (.round a) (round · ⟨a.toNat, ha⟩) :=
  (idleOnly_round a).transformsLanes (fun _ => decide_eq_true ha) fun s => ⟨_, exec_round a s, fun _ => rfl⟩
theorem transformsLanes_perm : TransformsLanes .perm keccakF :=
  idleOnly_perm.transformsLanes (fun _ => rfl) fun s => ⟨_, exec_perm s, fun _ => rfl⟩
theorem transformsLanes_stb {a : Byte} (ha : a.toNat < 200) (d : Byte) :
    TransformsLanes (.stb a d) (setByte · ⟨a.toNat, ha⟩ d) :=
  (idleOnly_stb a d).transformsLanes (fun _ => decide_eq_true ha) fun s => ⟨_, exec_stb a d s, fun _ => rfl⟩

variable {σ τ : Arch}

/-- Such a command, and then the others. -/
theorem TransformsLanes.runs_cons {i : Instr} {f : Lanes → Lanes} {is : List Instr} {ds : List Byte}
    (h : TransformsLanes i f) (hphase : σ.phase = .idle) (hrest : Runs is { σ with lanes := f σ.lanes } τ ds) :
    Runs (i :: is) σ τ (0x00#8 :: ds) := by
  refine .cons (fun s hs => ?_) hrest
  subst hs
  exact h s hphase

/-- A list of such commands leaves the lanes folded over the list. -/
theorem Runs.of_transformsLanes {α : Type} {cmd : α → Instr} {f : Lanes → α → Lanes}
    (h : ∀ x, TransformsLanes (cmd x) (f · x)) (l : List α) (hphase : σ.phase = .idle) :
    Runs (l.map cmd) σ { σ with lanes := l.foldl f σ.lanes } (List.replicate l.length 0x00#8) := by
  induction l generalizing σ with
  | nil => exact .nil σ
  | cons x l ih => exact (h x).runs_cons hphase (ih hphase)

/-- A list of commands that only answer leaves the architectural state and gives the answers in order. -/
theorem Runs.of_reads {α : Type} {cmd : α → Instr} {val : α → Byte}
    (h : ∀ (x : α) (s : State), s.arch = σ → exec (cmd x) s = .next (s.answer (val x))) (l : List α) :
    Runs (l.map cmd) σ σ (l.map val) := by
  induction l with
  | nil => exact .nil σ
  | cons x l ih =>
    refine .cons (fun s hs => ?_) ih
    subst hs
    exact h x s rfl

/-! ### Numbers as operands -/

/-- A list over the numbers below `n` is one over `Fin n`. -/
theorem map_range_eq_map_finRange {α : Type} (n : Nat) (g : Nat → α) :
    (List.range n).map g = (List.finRange n).map fun k => g k.val := by
  rw [← List.map_coe_finRange_eq_range, List.map_map]
  rfl

/-- A number below 200 fits the byte that writes it. -/
theorem toNat_ofNat_byte {k : Nat} (hk : k < 200) : (BitVec.ofNat 8 k).toNat = k := by
  rw [BitVec.toNat_ofNat]
  exact Nat.mod_eq_of_lt (by omega)

/-- ROUND with the number of a round (R85). -/
theorem transformsLanes_round_ofNat (ir : Fin 24) : TransformsLanes (.round (BitVec.ofNat 8 ir.val)) (round · ir) := by
  have hir : (BitVec.ofNat 8 ir.val).toNat = ir.val := toNat_ofNat_byte (by omega)
  have h := transformsLanes_round (a := BitVec.ofNat 8 ir.val) (hir.trans_lt ir.isLt)
  simpa only [hir] using h

/-- STB with the number of a byte (R117). -/
theorem transformsLanes_stb_ofNat (k : Fin 200) (d : Byte) :
    TransformsLanes (.stb (BitVec.ofNat 8 k.val) d) (setByte · k d) := by
  have hk : (BitVec.ofNat 8 k.val).toNat = k.val := toNat_ofNat_byte k.isLt
  have h := transformsLanes_stb (a := BitVec.ofNat 8 k.val) (hk.trans_lt k.isLt) d
  simpa only [hk] using h

/-- LDB with the number of a byte (R116). -/
theorem exec_ldb_ofNat (k : Fin 200) (s : State) :
    exec (.ldb (BitVec.ofNat 8 k.val)) s = .next (s.answer (byteAt s.arch.lanes k)) := by
  have hk : (BitVec.ofNat 8 k.val).toNat = k.val := toNat_ofNat_byte k.isLt
  have h := exec_ldb_eq_next (a := BitVec.ofNat 8 k.val) (hk.trans_lt k.isLt) s
  simpa only [hk] using h

/-- RDD with the number of a digest byte, in phase DONE (R97). -/
theorem exec_rdd_ofNat {s : State} (hphase : s.arch.phase = .done) (k : Fin (outLen s.arch.mode)) (hk : k.val < 200) :
    exec (.rdd (BitVec.ofNat 8 k.val)) s = .next (s.answer (byteAt s.arch.lanes ⟨k.val, hk⟩)) := by
  have hbyte : (BitVec.ofNat 8 k.val).toNat = k.val := toNat_ofNat_byte hk
  have h := exec_rdd_eq_next (a := BitVec.ofNat 8 k.val) hphase (hbyte.trans_lt k.isLt)
  simpa only [hbyte] using h

/-! ### ROUNDX and PERMX -/

/-- The commands of ROUNDX leave the lanes of the whole round (R78, R85). -/
theorem runs_roundx {a : Byte} (ha : a.toNat < 24) (hphase : σ.phase = .idle) :
    Runs (expand (.roundx a)) σ { σ with lanes := round σ.lanes ⟨a.toNat, ha⟩ } (List.replicate 4 0x00#8) :=
  transformsLanes_theta.runs_cons hphase (transformsLanes_rhopi.runs_cons hphase (transformsLanes_chi.runs_cons hphase
    ((transformsLanes_iota ha).runs_cons hphase (.nil _))))

/-- The commands of PERMX leave the lanes of the whole permutation (R79, R86). -/
theorem runs_permx (hphase : σ.phase = .idle) :
    Runs (expand .permx) σ { σ with lanes := keccakF σ.lanes } (List.replicate 24 0x00#8) := by
  rw [expand, map_range_eq_map_finRange]
  exact .of_transformsLanes transformsLanes_round_ofNat (List.finRange 24) hphase

/-- Settles O42: both leave the lanes of the round. -/
theorem roundIsItsFourCommands : Obligations.RoundIsItsFourCommands := by
  intro s t a hphase ha hround
  cases (transformsLanes_round ha s hphase).symm.trans hround
  exact ⟨_, (runs_roundx ha hphase).run rfl (List.append_nil _).symm, rfl⟩

/-- Settles O43: both leave the lanes of the permutation. -/
theorem permIsTwentyFourRounds : Obligations.PermIsTwentyFourRounds := by
  intro s t hphase hperm
  cases (transformsLanes_perm s hphase).symm.trans hperm
  exact ⟨_, (runs_permx hphase).run rfl (List.append_nil _).symm, rfl⟩

/-! ### LOAD and DUMP -/

/-- The lanes after the bytes `b` are stored at the indices of the list. -/
def storeBytes (b : Vector Byte 200) (l : List (Fin 200)) (S : Lanes) : Lanes := l.foldl (fun T k => setByte T k b[k]) S

/-- A byte stored somewhere in the list is read back, the others are as before. -/
theorem byteAt_storeBytes (b : Vector Byte 200) (l : List (Fin 200)) (S : Lanes) (k : Fin 200) :
    byteAt (storeBytes b l S) k = if k ∈ l then b[k] else byteAt S k := by
  induction l generalizing S with
  | nil => rfl
  | cons j l ih =>
    have hcons : storeBytes b (j :: l) S = storeBytes b l (setByte S j b[j]) := rfl
    rw [hcons, ih, byteAt_setByte]
    by_cases hl : k ∈ l
    · rw [if_pos hl, if_pos (List.mem_cons_of_mem j hl)]
    · by_cases hj : k = j
      · subst hj
        rw [if_neg hl, if_pos rfl, if_pos List.mem_cons_self]
      · rw [if_neg hl, if_neg hj, if_neg (List.not_mem_cons_of_ne_of_not_mem hj hl)]

/-- The commands of LOAD store all bytes (R62, R117). -/
theorem runs_load (b : Vector Byte 200) (hphase : σ.phase = .idle) :
    Runs (expand (.load b)) σ { σ with lanes := storeBytes b (List.finRange 200) σ.lanes } (List.replicate 200 0x00#8) := by
  have h := Runs.of_transformsLanes (fun k => transformsLanes_stb_ofNat k b[k]) (List.finRange 200) hphase
  rwa [List.length_finRange] at h

/-- The commands of DUMP answer all bytes in order (R62, R116). -/
theorem runs_dump (σ : Arch) : Runs (expand .dump) σ σ ((List.finRange 200).map (byteAt σ.lanes)) := by
  rw [expand, map_range_eq_map_finRange]
  exact .of_reads (fun k s hs => by rw [← hs]; exact exec_ldb_ofNat k s) _

/-- A vector is the list of its entries. -/
theorem map_finRange_getElem {n : Nat} (b : Vector Byte n) : (List.finRange n).map (fun k => b[k]) = b.toList := by
  apply List.ext_getElem <;> simp

/-- Settles O60: DUMP answers the bytes of the lanes LOAD left, which are those of `b`. -/
theorem loadThenDump : Obligations.LoadThenDump := by
  intro s b hphase hinputs
  have hruns := (runs_load b hphase).append (runs_dump { s.arch with lanes := storeBytes b (List.finRange 200) s.arch.lanes })
  have hbytes : (List.finRange 200).map (byteAt (storeBytes b (List.finRange 200) s.arch.lanes)) = b.toList := by
    rw [← map_finRange_getElem]
    refine List.map_congr_left fun k hk => ?_
    rw [byteAt_storeBytes, if_pos hk]
  have hlength : (expand (.load b) ++ expand .dump).length = 400 := by simp [expand]
  have hrun := hruns.run rfl (hinputs.trans (List.append_nil _).symm)
  rw [hlength, hbytes, List.map_append, List.map_replicate, ← List.append_assoc] at hrun
  exact ⟨_, hrun, rfl, rfl, hphase, rfl, rfl⟩

/-! ### HASH -/

/-- The absorb loop of the machine is that of the sponge functions (R92, R95). -/
theorem runs_absorbScript {M : List Byte} {T : Lanes} {c : Nat} (hphase : σ.phase = .absorb)
    (habsorb : absorbFrom σ.lanes σ.cursor.toNat M (rate σ.mode) = some (T, c)) :
    Runs (absorbScript M) σ { σ with lanes := T, cursor := BitVec.ofNat 8 c } (List.replicate M.length 0x00#8) := by
  induction M generalizing σ with
  | nil =>
    obtain ⟨rfl, rfl⟩ := Prod.mk.inj (Option.some.inj habsorb)
    rw [BitVec.ofNat_toNat, BitVec.setWidth_eq]
    exact .nil σ
  | cons b M ih =>
    rw [absorbFrom] at habsorb
    split at habsorb
    · next U c' hbyte =>
      have hfits : (BitVec.ofNat 8 c').toNat = c' := by
        have hc' := (absorbByte_some hbyte).2.2
        have hrate := (rate_bounds σ.mode).2
        exact toNat_ofNat_byte (by omega)
      refine .cons (τ := { σ with lanes := U, cursor := BitVec.ofNat 8 c' }) (fun s hs => ?_) (ih hphase ?_)
      · subst hs
        exact exec_absb_eq_next hphase hbyte
      · rw [hfits]
        exact habsorb
    · cases habsorb

/-- INIT, and then the others from the state it writes (R112). -/
theorem runs_init_cons {m : BitVec 2} {is : List Instr} {ds : List Byte} (σ : Arch)
    (hrest : Runs is ⟨zeroLanes, m, .absorb, 0#8⟩ τ ds) : Runs (.init m :: is) σ τ (0x00#8 :: ds) :=
  .cons (fun s _ => exec_init_eq_next m s) hrest

/-- FINAL with a padding in phase ABSORB, and then the others in phase DONE (R96). -/
theorem runs_final_cons {P : Lanes} {is : List Instr} {ds : List Byte} (hphase : σ.phase = .absorb)
    (hpad : pad σ.lanes σ.cursor.toNat Config.domainByte (rate σ.mode) = some P)
    (hrest : Runs is { σ with lanes := keccakF P, phase := .done } τ ds) : Runs (.final :: is) σ τ (0x00#8 :: ds) := by
  refine .cons (fun s hs => ?_) hrest
  subst hs
  exact exec_final_eq_next hphase hpad

/-- The acknowledgements of INIT, of the message and of FINAL, written as one run of zeros. -/
theorem zeros_append_zero_cons (n : Nat) (D : List Byte) :
    0x00#8 :: (List.replicate n 0x00#8 ++ 0x00#8 :: D) = List.replicate (n + 2) 0x00#8 ++ D := by
  rw [List.replicate_succ, List.replicate_succ']
  simp

/-- In phase DONE the commands of DIGEST answer the first bytes of the lanes (R62, R94, R97). -/
theorem runs_digestScript (hphase : σ.phase = .done) (hle : outLen σ.mode ≤ 200) :
    Runs (digestScript σ.mode) σ σ (firstBytes σ.lanes (outLen σ.mode) hle) := by
  rw [digestScript, map_range_eq_map_finRange]
  refine .of_reads (fun k s hs => ?_) _
  subst hs
  exact exec_rdd_ofNat hphase k _

/-- The command sequence of the one-shot function computes `squeeze(absorb(0, M))` and ends in phase DONE (R118). -/
theorem runs_hashScript (m : BitVec 2) (M : List Byte) (σ : Arch) : ∃ (τ : Arch) (D : List Byte), sha3 m M = some D ∧
    D.length = outLen m ∧ τ.phase = .done ∧ Runs (hashScript m M) σ τ (List.replicate (M.length + 2) 0x00#8 ++ D) := by
  obtain ⟨hlen, hlenrate, hrate⟩ : 1 ≤ outLen m ∧ outLen m ≤ rate m ∧ rate m ≤ 200 := by revert m; decide
  obtain ⟨S, habsorb⟩ := absorbFrom_cursor hrate M (zero_lt_rate m) zeroLanes
  obtain ⟨c, hc⟩ : ∃ c, c = (0 + M.length) % rate m := ⟨_, rfl⟩
  have hcrate : c < rate m := hc ▸ Nat.mod_lt _ (zero_lt_rate m)
  have hcursor : (BitVec.ofNat 8 c).toNat = c := toNat_ofNat_byte (hcrate.trans_le hrate)
  obtain ⟨P, hpad⟩ : ∃ P, pad S c Config.domainByte (rate m) = some P := ⟨_, pad_eq ⟨hcrate, hrate⟩⟩
  rw [← hc] at habsorb
  refine ⟨⟨keccakF P, m, .done, BitVec.ofNat 8 c⟩, firstBytes (keccakF P) (outLen m) (hlenrate.trans hrate), ?_,
    firstBytes_length _ _ _, rfl, ?_⟩
  · rw [sha3, absorb, if_pos ⟨zero_lt_rate m, hrate⟩, habsorb]
    exact congrArg (Option.map Prod.snd) (squeeze_eq ⟨hlen, hlenrate, hrate⟩ hpad)
  · have hmessage := runs_absorbScript (σ := ⟨zeroLanes, m, .absorb, 0#8⟩) rfl habsorb
    have hfinal := runs_final_cons (σ := ⟨S, m, .absorb, BitVec.ofNat 8 c⟩) rfl (hcursor.symm ▸ hpad)
      (runs_digestScript rfl (hlenrate.trans hrate))
    rw [← zeros_append_zero_cons]
    exact runs_init_cons σ (hmessage.append hfinal)

/-- Settles O59: the machine runs the words of `runs_hashScript`. -/
theorem oneShotHash : Obligations.OneShotHash := by
  intro m M s hinputs
  obtain ⟨τ, D, hsha3, hlength, hphase, hruns⟩ := runs_hashScript m M s.arch
  have hcount : (hashScript m M).length = M.length + 2 + outLen m := by
    simp only [hashScript, absorbScript, digestScript, List.length_cons, List.length_append, List.length_map,
      List.length_range]
    omega
  have hrun := hruns.run rfl (hinputs.trans (List.append_nil _).symm)
  rw [hcount, List.map_append, List.map_replicate, ← List.append_assoc] at hrun
  exact ⟨_, D, hsha3, hlength, hrun, rfl, hphase, rfl⟩

end Sys2Proof.Machine
end
